-- ==== Sys2Proof/Word.lean ====
section
/-! DEFINITION. The word type of the ports and the number readings of 00_scope.md section 6.1. -/

namespace Sys2Proof

/-- A word: 64 bits, bit 0 least significant (00_scope.md section 6.1, 20_memory.md R29). -/
abbrev Word := BitVec 64

/-- The value of the request port `op`: 8 bits (10_state.md R18). -/
abbrev OpCode := BitVec 8

/-- `uval(w)`: the unsigned number a word denotes. -/
abbrev uval (w : Word) : Nat := w.toNat

/-- `sval(w)`: the signed (two's complement, D31) number a word denotes. -/
abbrev sval (w : Word) : Int := w.toInt

/-- `word(n)`: the word whose unsigned value is `n` modulo 2^64; how every "wraps" of the spec is written. -/
abbrev word (n : Int) : Word := BitVec.ofInt 64 n

end Sys2Proof
end

