-- ==== Sys2Proof/Syntax.lean ====
section
/-! DEFINITION. The operations of the op code table (30_encoding.md R41), one constructor per row, and the transaction that
carries one (R37). -/

namespace Sys2Proof

/-- The 24 operations of 30_encoding.md R41. An operation has no operand fields of its own: "the instruction word" is `op`
alone, and `a` and `b` are data on the ports (R37; log 14). -/
inductive Instr
  | i2xS8
  | i2xS16
  | i2xS32
  | i2xS64
  | i2xU8
  | i2xU16
  | i2xU32
  | i2xU64
  | x2iS32
  | x2iS64
  | f2xF32
  | f2xF64
  | x2fF32
  | x2fF64
  | add
  | sub
  | mul
  | div
  | cmpeq
  | cmpne
  | cmplt
  | cmple
  | cmpgt
  | cmpge
  deriving DecidableEq, Repr

/-- The mnemonic of 30_encoding.md R41. -/
def Instr.mnemonic : Instr → String
  | .i2xS8 => "I2X.S8"
  | .i2xS16 => "I2X.S16"
  | .i2xS32 => "I2X.S32"
  | .i2xS64 => "I2X.S64"
  | .i2xU8 => "I2X.U8"
  | .i2xU16 => "I2X.U16"
  | .i2xU32 => "I2X.U32"
  | .i2xU64 => "I2X.U64"
  | .x2iS32 => "X2I.S32"
  | .x2iS64 => "X2I.S64"
  | .f2xF32 => "F2X.F32"
  | .f2xF64 => "F2X.F64"
  | .x2fF32 => "X2F.F32"
  | .x2fF64 => "X2F.F64"
  | .add => "ADD"
  | .sub => "SUB"
  | .mul => "MUL"
  | .div => "DIV"
  | .cmpeq => "CMPEQ"
  | .cmpne => "CMPNE"
  | .cmplt => "CMPLT"
  | .cmple => "CMPLE"
  | .cmpgt => "CMPGT"
  | .cmpge => "CMPGE"

/-- One request: the triple (`op`, `a`, `b`) the host presents at once (10_state.md R18, R19; 30_encoding.md R37). -/
structure Request where
  op : OpCode
  a  : Word
  b  : Word
  deriving DecidableEq, Repr

end Sys2Proof
end

