-- ==== Sys2Proof/WellFormed.lean ====
section
/-! DEFINITION. Which op codes are defined, by the fields of 30_encoding.md R38, and well-formed requests. The check is
written from the field rules, not from the table the decoder uses, so that the two can be compared. -/

namespace Sys2Proof

/-- `op[7:4]`, the group (30_encoding.md R38). -/
def opGroup (op : OpCode) : BitVec 4 := op.extractLsb' 4 4

/-- `op[3:0]`, the function within the group (30_encoding.md R38). -/
def opFunction (op : OpCode) : BitVec 4 := op.extractLsb' 0 4

/-- The six defined groups (30_encoding.md R38). -/
inductive OpGroup
  | i2x
  | x2i
  | f2x
  | x2f
  | arith
  | cmp
  deriving DecidableEq, Repr

/-- The group a group code names; groups 0x6 to 0xF are reserved (30_encoding.md R38). -/
def groupOf (g : BitVec 4) : Option OpGroup :=
  if g = 0x0#4 then some .i2x
  else if g = 0x1#4 then some .x2i
  else if g = 0x2#4 then some .f2x
  else if g = 0x3#4 then some .x2f
  else if g = 0x4#4 then some .arith
  else if g = 0x5#4 then some .cmp
  else none

/-- Check of a function code within its group (30_encoding.md R38): I2X has `op[3] = 0`; X2I, F2X and X2F have
`op[3:2] = 0` and width code 2 or 3; ARITH has 0 to 3; CMP has 0 to 5. -/
def functionDefined (g : OpGroup) (fn : BitVec 4) : Bool :=
  match g with
  | .i2x => fn.extractLsb' 3 1 == 0#1
  | .x2i => fn.extractLsb' 2 2 == 0#2 && fn.extractLsb' 1 1 == 1#1
  | .f2x => fn.extractLsb' 2 2 == 0#2 && fn.extractLsb' 1 1 == 1#1
  | .x2f => fn.extractLsb' 2 2 == 0#2 && fn.extractLsb' 1 1 == 1#1
  | .arith => decide (fn.toNat < 4)
  | .cmp => decide (fn.toNat < 6)

/-- An op code is defined when its group is and its function is defined in that group (30_encoding.md R38). -/
def opDefined (op : OpCode) : Bool :=
  match groupOf (opGroup op) with
  | some g => functionDefined g (opFunction op)
  | none => false

/-- A request the host may present: its op code is not reserved (30_encoding.md R43, 70_reset_and_hazards.md R139). Every
`a` and every `b` is allowed (R45). -/
def Request.wf (q : Request) : Bool := opDefined q.op

/-- Every operation is well-formed: it has no operand field that could hold a reserved value (30_encoding.md R37, R45). -/
def Instr.wf (_ : Instr) : Bool := true

end Sys2Proof
end

