-- ==== Sys2Proof/Decode.lean ====
section
/-! DEFINITION. The decoder of 30_encoding.md R41, R43 and R45, total on the 256 op codes; the encoder; the 136-bit packing
of a transaction (R37). -/

namespace Sys2Proof

/-- One row of the op code table of 30_encoding.md R41. -/
structure OpRow where
  code  : OpCode
  instr : Instr
  deriving DecidableEq, Repr

/-- The conversion rows of 30_encoding.md R41. -/
def conversionRows : List OpRow :=
  [⟨0x00#8, .i2xS8⟩, ⟨0x01#8, .i2xS16⟩, ⟨0x02#8, .i2xS32⟩, ⟨0x03#8, .i2xS64⟩,
   ⟨0x04#8, .i2xU8⟩, ⟨0x05#8, .i2xU16⟩, ⟨0x06#8, .i2xU32⟩, ⟨0x07#8, .i2xU64⟩,
   ⟨0x12#8, .x2iS32⟩, ⟨0x13#8, .x2iS64⟩,
   ⟨0x22#8, .f2xF32⟩, ⟨0x23#8, .f2xF64⟩,
   ⟨0x32#8, .x2fF32⟩, ⟨0x33#8, .x2fF64⟩]

/-- The arithmetic and comparison rows of 30_encoding.md R41. -/
def operatorRows : List OpRow :=
  [⟨0x40#8, .add⟩, ⟨0x41#8, .sub⟩, ⟨0x42#8, .mul⟩, ⟨0x43#8, .div⟩,
   ⟨0x50#8, .cmpeq⟩, ⟨0x51#8, .cmpne⟩, ⟨0x52#8, .cmplt⟩, ⟨0x53#8, .cmple⟩,
   ⟨0x54#8, .cmpgt⟩, ⟨0x55#8, .cmpge⟩]

/-- The op code table of 30_encoding.md R41; a row is compared on all 8 bits. -/
def opcodeTable : List OpRow := conversionRows ++ operatorRows

/-- The decoder's answer: one of the 24 operations, or "reserved" with the code (30_encoding.md R43, R45). -/
inductive Decoded
  | op (i : Instr)
  | reserved (code : OpCode)
  deriving DecidableEq, Repr

/-- The decoder (30_encoding.md R41, R45): it reads `op` alone. -/
def decode (op : OpCode) : Decoded :=
  match opcodeTable.find? (fun row => row.code == op) with
  | some row => .op row.instr
  | none => .reserved op

/-- The op code of an operation (30_encoding.md R41). -/
def encode : Instr → OpCode
  | .i2xS8 => 0x00#8
  | .i2xS16 => 0x01#8
  | .i2xS32 => 0x02#8
  | .i2xS64 => 0x03#8
  | .i2xU8 => 0x04#8
  | .i2xU16 => 0x05#8
  | .i2xU32 => 0x06#8
  | .i2xU64 => 0x07#8
  | .x2iS32 => 0x12#8
  | .x2iS64 => 0x13#8
  | .f2xF32 => 0x22#8
  | .f2xF64 => 0x23#8
  | .x2fF32 => 0x32#8
  | .x2fF64 => 0x33#8
  | .add => 0x40#8
  | .sub => 0x41#8
  | .mul => 0x42#8
  | .div => 0x43#8
  | .cmpeq => 0x50#8
  | .cmpne => 0x51#8
  | .cmplt => 0x52#8
  | .cmple => 0x53#8
  | .cmpgt => 0x54#8
  | .cmpge => 0x55#8

/-- A request written as one 136-bit number (30_encoding.md R37): `op` in bits 135..128, `a` in 127..64, `b` in 63..0. -/
def packRequest (q : Request) : BitVec 136 := q.op ++ q.a ++ q.b

/-- The request a 136-bit number stands for (30_encoding.md R37). -/
def unpackRequest (n : BitVec 136) : Request :=
  { op := n.extractLsb' 128 8
    a := n.extractLsb' 64 64
    b := n.extractLsb' 0 64 }

/-- A whole transaction as read from its 136-bit number. -/
inductive DecodedTransaction
  | txn (i : Instr) (a b : Word)
  | reserved (code : OpCode)
  deriving DecidableEq, Repr

/-- Decode a transaction written as one 136-bit number (30_encoding.md R37, R41, R43). -/
def decodeTransaction (n : BitVec 136) : DecodedTransaction :=
  match decode (unpackRequest n).op with
  | .op i => .txn i (unpackRequest n).a (unpackRequest n).b
  | .reserved code => .reserved code

/-- Write a transaction as one 136-bit number (30_encoding.md R37, R41). -/
def encodeTransaction (i : Instr) (a b : Word) : BitVec 136 :=
  packRequest { op := encode i, a := a, b := b }

/-- The op code a table word of `nbits` bits stands for: the table gives every row the 8 bits of `op`. -/
def tableOpCode (nbits w : Nat) : OpCode := BitVec.ofNat 8 (w % 2 ^ nbits)

/-- The host's question: the operation the decoder reads from a table word. -/
def decodeTableWord (nbits w : Nat) : Option Instr :=
  match decode (tableOpCode nbits w) with
  | .op i => some i
  | .reserved _ => none

end Sys2Proof
end

