-- ==== Sys2Proof/Config.lean ====
section
/-! DEFINITION. The build-time parameters of the core, constant over a run (00_scope.md R6 to R11), and the free value
`F2X_INVALID`. A parameter the spec leaves open is a constant with no body: nothing can be proved about which value it is,
so every claim holds for every build. -/

namespace Sys2Proof

/-- The two float formats of the core (41_float_conversion.md R65). -/
inductive FloatFormat
  | f32
  | f64
  deriving DecidableEq, Repr

/-- The rounding directions of `X2F_ROUND` (00_scope.md R10). -/
inductive RoundingDirection
  | tiesToEven
  | towardZero
  | towardPositive
  | towardNegative
  deriving DecidableEq, Repr, Inhabited

/-- The values of `DIV_POLICY` (00_scope.md R8). -/
inductive DivPolicy
  | integer
  | float
  deriving DecidableEq, Repr

/-- `FAST_FLOAT_CONV` (00_scope.md R7): chosen at build time, left open (log 5). -/
opaque Config.fastFloatConv : Bool

/-- `X2F_ROUND` (00_scope.md R10, D22): the rounding direction of X2F, left open (log 6). -/
opaque Config.x2fRound : RoundingDirection

/-- `F2X_INVALID` (00_scope.md R10, D20): what F2X answers on a NaN, an infinity or an out-of-range operand; a free value,
a function of the format and the operand bits alone, "under no law" (41_float_conversion.md R68, log 7). -/
opaque Config.f2xInvalid : FloatFormat → Word → Word

/-- `DIV_POLICY`: fixed by the spec for this hardware (00_scope.md R8, 44_divide.md R104, log 8). -/
def Config.divPolicy : DivPolicy := .integer

/-- `FRAC`: the number of fraction bits (00_scope.md R6). -/
abbrev Config.frac : Nat := 24

/-- `POS_SENTINEL` = 2^63 - 1 (00_scope.md R11, log 12). -/
abbrev Config.posSentinel : Word := 0x7FFFFFFFFFFFFFFF#64

/-- `NEG_SENTINEL` = -(2^63 - 1) (00_scope.md R11, log 12). -/
abbrev Config.negSentinel : Word := 0x8000000000000001#64

end Sys2Proof
end

