-- ==== Sys2Proof/Machine/State.lean ====
section
/-! DEFINITION. The machine's state. The spec gives the core no register, program counter, flag, control register or memory
(10_state.md R20 to R27, 20_memory.md R28): the state is what stands on the ports and what the host has still to present. -/

namespace Sys2Proof.Machine

/-- The state of the machine: the host's side of the ports (10_state.md R13, R18, R19; log 1, log 2). The core itself keeps
nothing between transactions (R20, R27). -/
structure State where
  /-- The transactions the host has still to present, in its order (70_reset_and_hazards.md R138); the first one is what
  stands on the request ports `op`, `a`, `b` (10_state.md R18). Empty: the host presents no transaction. -/
  requests : List Request
  /-- The response port `r`: a value only as the answer to a request (10_state.md R26). -/
  r : Option Word
  deriving DecidableEq, Repr

/-- The machine right after reset (10_state.md R26, 70_reset_and_hazards.md R136): reset sets nothing, no transaction is
presented, and `r` has no value before the first answer. -/
def State.reset : State := { requests := [], r := none }

/-- Faults: none. "The core raises no synchronous exception, for any operation and any operands" (60_exceptions.md R123),
and the spec's table of step outcomes lists none (R126); the type has no constructor, so no one raises one (log 13). -/
inductive Fault : Type
  deriving DecidableEq, Repr

/-- Refusals: the model declining to speak (60_exceptions.md R126). -/
inductive Refusal
  /-- An operation that has no meaning in the model. Raised only by an arm of `exec` that is still refused; none is. Safe. -/
  | notModelled (mnemonic : String)
  /-- Raised by `step` on a reserved op code (30_encoding.md R43: the model refuses it by name). Safe. -/
  | reservedOpCode (op : OpCode)
  /-- Raised by DIV when `DIV_POLICY = FLOAT` (44_divide.md R104). This hardware fixes INTEGER, so it is never raised by
  `exec`. Safe. -/
  | divPolicyFloat
  /-- Raised by `step` and by every meaning when the host presents no transaction: the core "has no step that is not the
  answer to a transaction" (10_state.md R13; log 3). Safe. -/
  | noTransaction
  deriving DecidableEq, Repr

/-- The outcome of a step on this machine. -/
abbrev StepOutcome := Host.Outcome State Fault Refusal

end Sys2Proof.Machine
end

