-- ==== Sys2Proof/Machine/Ops.lean ====
section
/-! DEFINITION. The primitives of 00_scope.md section 6.2 that the operation rules use, and the one way a transaction reads
the request ports and drives the response port. There is no exception entry and no return from one: the core raises no
exception and has no trap mechanism (60_exceptions.md R123, R129, R130). -/

namespace Sys2Proof.Machine

/-- `sgn(w)`: the bit `w[63]` (00_scope.md section 6.2). -/
def sgn (w : Word) : Bool := w.msb

/-- `neg64(w)`: `word(-sval(w))`, two's complement negation (00_scope.md section 6.2, D15). -/
def neg64 (w : Word) : Word := -w

/-- `mag64(w)`: the magnitude, read as unsigned; `2^63` for the most negative word (00_scope.md section 6.2, D13; log 10). -/
def mag64 (w : Word) : Word := if sgn w then neg64 w else w

/-- `apply_sign(p, m)` (00_scope.md section 6.2, D15). -/
def applySign (p : Bool) (m : Word) : Word := if p then neg64 m else m

/-- `lsl64(w, k)`: logical shift left, bits past bit 63 lost (00_scope.md section 6.2). -/
def lsl64 (w : Word) (k : Nat) : Word := w <<< k

/-- `lsr64(w, k)`: logical shift right, zeros enter at bit 63 (00_scope.md section 6.2). -/
def lsr64 (w : Word) (k : Nat) : Word := w >>> k

/-- `umul64(x, y)`: the low 64 bits of the unsigned product (00_scope.md section 6.2; log 11). -/
def umul64 (x y : Word) : Word := x * y

/-- `udiv64(x, y)`: the floor of the unsigned quotient; used only with a nonzero divisor (00_scope.md section 6.2). -/
def udiv64 (x y : Word) : Word := x / y

/-- The host presents one more transaction, after those it has already chosen (70_reset_and_hazards.md R138, R139). -/
def State.present (s : State) (q : Request) : State := { s with requests := s.requests ++ [q] }

/-- Put an op code on the `op` port of the transaction presented next, `a` and `b` staying as the host has them; if the host
presents none, a transaction with zero operands is presented (log 4). -/
def State.withOpCode (s : State) (op : OpCode) : State :=
  match s.requests with
  | [] => { s with requests := [{ op := op, a := 0#64, b := 0#64 }] }
  | q :: rest => { s with requests := { q with op := op } :: rest }

/-- The core answers the presented transaction with word `w` (`r <- w`, "the only effect any operation has", 00_scope.md
section 6.2): the transaction is done and `r` carries its answer. -/
def State.answer (s : State) (w : Word) : State := { requests := s.requests.tail, r := some w }

/-- One transaction (10_state.md R19, 20_memory.md R32): read `a` and `b` at once, answer `f a b`, change nothing else. With
no transaction presented there is nothing to answer (log 3). -/
def transact (f : Word → Word → Word) (s : State) : StepOutcome :=
  match s.requests with
  | [] => .refused .noTransaction
  | q :: _ => .next (s.answer (f q.a q.b))

end Sys2Proof.Machine
end

