-- ==== Sys2Proof/Machine/AddSub.lean ====
section
/-! DEFINITION. Addition and subtraction: ADD, SUB (42_add_sub.md). -/

namespace Sys2Proof.Machine

/-- `word(sval(a) + sval(b))`: a 64-bit adder, carry out dropped (42_add_sub.md R81). -/
def addWord (a b : Word) : Word := a + b

/-- `word(sval(a) - sval(b))`: a 64-bit subtractor, borrow out dropped (42_add_sub.md R82). -/
def subWord (a b : Word) : Word := a - b

/-- ADD (42_add_sub.md R81). -/
def execAdd (s : State) : StepOutcome := transact addWord s

/-- SUB (42_add_sub.md R82). -/
def execSub (s : State) : StepOutcome := transact subWord s

end Sys2Proof.Machine
end

