-- ==== Sys2Proof/Machine/Flags.lean ====
section
/-! DEFINITION. The core keeps no flags (10_state.md R22). This file holds the one-bit conditions the rules compute on the way
to a result: the parity flag of MUL and DIV, the zero test of the reduced divisor, the range test of F2X, and the truth
values of the comparisons. -/

namespace Sys2Proof.Machine

/-- The parity flag: 1 when exactly one operand is negative (43_multiply.md R86, 44_divide.md R95; 00_scope.md glossary). -/
def parityFlag (a b : Word) : Bool := sgn a ^^ sgn b

/-- The division-by-zero test, made on the reduced divisor (44_divide.md R96). -/
def divisorIsZero (dv : Word) : Bool := dv == 0#64

/-- `-2^63 <= t <= 2^63 - 1`: the integer fits the container (41_float_conversion.md R67). -/
def fitsWord (t : Int) : Bool := decide (-2 ^ 63 ≤ t) && decide (t ≤ 2 ^ 63 - 1)

/-- A truth value as a word: `zext_1` (30_encoding.md R42, 45_compare.md R106). -/
def truthWord (t : Bool) : Word := (BitVec.ofBool t).setWidth 64

/-- `a = b` on all 64 bits (45_compare.md R107). -/
def wordEq (a b : Word) : Bool := a == b

/-- `sval(a) < sval(b)`, decided exactly, not by the sign of a wrapped difference (45_compare.md R109). -/
def signedLt (a b : Word) : Bool := decide (sval a < sval b)

/-- `sval(a) <= sval(b)` (45_compare.md R110). -/
def signedLe (a b : Word) : Bool := decide (sval a ≤ sval b)

end Sys2Proof.Machine
end

