-- ==== Sys2Proof/Machine/Compare.lean ====
section
/-! DEFINITION. Comparisons: CMPEQ, CMPNE, CMPLT, CMPLE, CMPGT, CMPGE (45_compare.md). -/

namespace Sys2Proof.Machine

/-- CMPEQ (45_compare.md R107). -/
def execCmpeq (s : State) : StepOutcome := transact (fun a b => truthWord (wordEq a b)) s

/-- CMPNE (45_compare.md R108). -/
def execCmpne (s : State) : StepOutcome := transact (fun a b => truthWord (!wordEq a b)) s

/-- CMPLT (45_compare.md R109). -/
def execCmplt (s : State) : StepOutcome := transact (fun a b => truthWord (signedLt a b)) s

/-- CMPLE (45_compare.md R110). -/
def execCmple (s : State) : StepOutcome := transact (fun a b => truthWord (signedLe a b)) s

/-- CMPGT (45_compare.md R111). -/
def execCmpgt (s : State) : StepOutcome := transact (fun a b => truthWord (signedLt b a)) s

/-- CMPGE (45_compare.md R112). -/
def execCmpge (s : State) : StepOutcome := transact (fun a b => truthWord (signedLe b a)) s

end Sys2Proof.Machine
end

