-- ==== Sys2Proof/Machine/Multiply.lean ====
section
/-! DEFINITION. Multiplication: MUL (43_multiply.md). -/

namespace Sys2Proof.Machine

/-- A magnitude after the right shift by 8 (00_scope.md glossary; 43_multiply.md R86, 44_divide.md R95). -/
def reducedMagnitude (w : Word) : Word := lsr64 (mag64 w) 8

/-- The reduced-precision sign-magnitude product (43_multiply.md R86; log 11). -/
def mulWord (a b : Word) : Word :=
  applySign (parityFlag a b) (lsr64 (umul64 (reducedMagnitude a) (reducedMagnitude b)) 8)

/-- MUL (43_multiply.md R86). -/
def execMul (s : State) : StepOutcome := transact mulWord s

end Sys2Proof.Machine
end

