-- ==== Sys2Proof/Machine/Divide.lean ====
section
/-! DEFINITION. Division: DIV (44_divide.md). -/

namespace Sys2Proof.Machine

/-- The sentinel of a division whose reduced divisor is zero; its sign is the combined sign of the original operands
(44_divide.md R96, R97, R98; log 12). -/
def sentinel (p : Bool) : Word := if p then Config.negSentinel else Config.posSentinel

/-- The reduced-precision sign-magnitude quotient; the zero test comes first and decides alone (44_divide.md R95, R96,
60_exceptions.md R128; log 11). -/
def divWord (a b : Word) : Word :=
  let p := parityFlag a b
  let dv := reducedMagnitude b
  if divisorIsZero dv then sentinel p
  else applySign p (lsl64 (udiv64 (lsl64 (mag64 a) 10) dv) 6)

/-- DIV under a division policy: `FLOAT` has no semantics in the spec and is refused by name (00_scope.md R8, 44_divide.md
R104; log 8). -/
def divUnder (policy : DivPolicy) (s : State) : StepOutcome :=
  match policy with
  | .integer => transact divWord s
  | .float => .refused .divPolicyFloat

/-- DIV (44_divide.md R95). -/
def execDiv (s : State) : StepOutcome := divUnder Config.divPolicy s

end Sys2Proof.Machine
end

