-- ==== Sys2Proof/Machine/Operands.lean ====
section
/-! DEFINITION. How the operand value is assembled from port `a` and the result on port `r` (30_encoding.md R39, R42), and the
fields of the two float formats (41_float_conversion.md R66). -/

namespace Sys2Proof.Machine

/-- `sext_N(v)`: the low `n` bits, sign-extended (00_scope.md section 6.2; 30_encoding.md R39). -/
def sext (n : Nat) (v : Word) : Word := (v.setWidth n).signExtend 64

/-- `zext_N(v)`: the low `n` bits, zero-extended (00_scope.md section 6.2; 30_encoding.md R39). -/
def zext (n : Nat) (v : Word) : Word := (v.setWidth n).setWidth 64

/-- The width of a float pattern (41_float_conversion.md R66). -/
def floatWidth : FloatFormat → Nat
  | .f32 => 32
  | .f64 => 64

/-- `P`, the number of fraction bits (41_float_conversion.md R66). -/
def fracBits : FloatFormat → Nat
  | .f32 => 23
  | .f64 => 52

/-- The number of exponent bits (41_float_conversion.md R66). -/
def expBits : FloatFormat → Nat
  | .f32 => 8
  | .f64 => 11

/-- `B`, the exponent bias (41_float_conversion.md R66). -/
def bias : FloatFormat → Nat
  | .f32 => 127
  | .f64 => 1023

/-- The all-ones exponent (41_float_conversion.md R66). -/
def expAllOnes : FloatFormat → Nat
  | .f32 => 255
  | .f64 => 2047

/-- The float pattern on port `a`: `a[31:0]` for F32 with `a[63:32]` ignored, all of `a` for F64 (30_encoding.md R39,
41_float_conversion.md R65). -/
def floatOperand (f : FloatFormat) (a : Word) : Word := zext (floatWidth f) a

/-- The three fields of a float pattern (41_float_conversion.md R66). -/
structure FloatFields where
  sign : Bool
  e    : Nat
  frac : Nat
  deriving DecidableEq, Repr

/-- Split a pattern into its fields (41_float_conversion.md R66). -/
def floatFields (f : FloatFormat) (v : Word) : FloatFields where
  sign := v.getLsbD (floatWidth f - 1)
  e := v.toNat / 2 ^ fracBits f % 2 ^ expBits f
  frac := v.toNat % 2 ^ fracBits f

/-- The pattern `{s, e, f}` in the low bits of a word, zeros above (41_float_conversion.md R66, 30_encoding.md R42). -/
def packFloat (f : FloatFormat) (x : FloatFields) : Word :=
  BitVec.ofNat 64 (x.sign.toNat * 2 ^ (floatWidth f - 1) + x.e * 2 ^ fracBits f + x.frac)

/-- The class of a pattern (41_float_conversion.md R66). -/
inductive FloatClass
  | zero
  | subnormal
  | normal
  | infinity
  | nan
  deriving DecidableEq, Repr

/-- The class table of 41_float_conversion.md R66. -/
def floatClass (f : FloatFormat) (x : FloatFields) : FloatClass :=
  if x.e = 0 then (if x.frac = 0 then .zero else .subnormal)
  else if x.e = expAllOnes f then (if x.frac = 0 then .infinity else .nan)
  else .normal

/-- A pattern is finite in the first three classes (41_float_conversion.md R66). -/
def isFinite (f : FloatFormat) (x : FloatFields) : Bool :=
  match floatClass f x with
  | .zero => true
  | .subnormal => true
  | .normal => true
  | .infinity => false
  | .nan => false

/-- An exact real `(-1)^neg * sig * 2^exp`: how the model carries `fval(v)` (41_float_conversion.md R66; log 16). -/
structure Dyadic where
  neg : Bool
  sig : Nat
  exp : Int
  deriving DecidableEq, Repr

/-- `fval(v)` of a finite pattern (41_float_conversion.md R66): a zero or subnormal is `f * 2^(1 - B - P)`, a normal
`(2^P + f) * 2^(e - B - P)`. -/
def fvalDyadic (f : FloatFormat) (x : FloatFields) : Dyadic where
  neg := x.sign
  sig := if x.e = 0 then x.frac else 2 ^ fracBits f + x.frac
  exp := (if x.e = 0 then 1 else (x.e : Int)) - bias f - fracBits f

/-- The exact product with `2^k` (41_float_conversion.md R67: "no rounding, no overflow"). -/
def Dyadic.scale (d : Dyadic) (k : Int) : Dyadic := { d with exp := d.exp + k }

/-- `trunc`: the integer toward zero (00_scope.md section 6.2). -/
def Dyadic.trunc (d : Dyadic) : Int :=
  let m : Nat := if 0 ≤ d.exp then d.sig <<< d.exp.toNat else d.sig >>> (-d.exp).toNat
  if d.neg then -(m : Int) else m

end Sys2Proof.Machine
end

