-- ==== Sys2Proof/Machine/FloatConversion.lean ====
section
/-! DEFINITION. Floating-point conversions: F2X.F32, F2X.F64, X2F.F32, X2F.F64 (41_float_conversion.md), with the generic
path, the fast path and the bit-level extraction. -/

namespace Sys2Proof.Machine

/-- The last step of every F2X path: the word of an integer that fits, else the free value (41_float_conversion.md R67). -/
def wordOrInvalid (f : FloatFormat) (v : Word) (t : Int) : Word :=
  if fitsWord t then word t else Config.f2xInvalid f v

/-- The generic path of F2X on a finite pattern: `trunc(fval(v) * 2^24)` (41_float_conversion.md R67). -/
def f2xGeneric (f : FloatFormat) (v : Word) : Word :=
  wordOrInvalid f v ((fvalDyadic f (floatFields f v)).scale Config.frac).trunc

/-- The fast path of F2X on a finite pattern: add 24 in the exponent field, then truncate the float read from the edited
pattern; an exponent that would reach the all-ones value answers the free value and no pattern is formed
(41_float_conversion.md R71; log 17). -/
def f2xFast (f : FloatFormat) (v : Word) : Word :=
  let x := floatFields f v
  if x.e + Config.frac < expAllOnes f then
    let y := packFloat f { x with e := x.e + Config.frac }
    wordOrInvalid f v (fvalDyadic f (floatFields f y)).trunc
  else Config.f2xInvalid f v

/-- The bit-level extraction, the integer-only third form of F2X on a finite pattern (41_float_conversion.md R73). No
operation runs it: it is held against the two paths. -/
def f2xExtract (f : FloatFormat) (v : Word) : Word :=
  let x := floatFields f v
  if x.e = 0 then 0#64
  else
    let sig := 2 ^ fracBits f + x.frac
    let k : Int := (x.e : Int) - bias f + Config.frac - fracBits f
    let m : Nat :=
      if 0 ≤ k then sig * 2 ^ k.toNat
      else if -k ≤ fracBits f then sig / 2 ^ (-k).toNat
      else 0
    if m ≤ 2 ^ 63 - 1 ∨ (x.sign = true ∧ m = 2 ^ 63) then applySign x.sign (BitVec.ofNat 64 m)
    else Config.f2xInvalid f v

/-- F2X of a pattern under a choice of path: an infinity or a NaN answers the free value, a finite pattern goes through the
generic path or the fast one (41_float_conversion.md R69, R70). -/
def floatToFixed (fast : Bool) (f : FloatFormat) (v : Word) : Word :=
  if isFinite f (floatFields f v) then
    (if fast then f2xFast f v else f2xGeneric f v)
  else Config.f2xInvalid f v

/-- Whether a discarded part `rem` of `2^d` rounds the kept integer `n` up, in direction `mode` for a value of sign `neg`
(41_float_conversion.md R75). -/
def roundsUp (mode : RoundingDirection) (neg : Bool) (n rem d : Nat) : Bool :=
  match mode with
  | .tiesToEven => decide (2 ^ d < 2 * rem) || (decide (2 * rem = 2 ^ d) && decide (n % 2 = 1))
  | .towardZero => false
  | .towardPositive => !neg && decide (rem ≠ 0)
  | .towardNegative => neg && decide (rem ≠ 0)

/-- The significand of magnitude `m`, scaled to lie in `2^P .. 2^(P+1)` and rounded to an integer: the `n` of
41_float_conversion.md R75, where `x = m / 2^(log2 m - P)`. -/
def roundedSignificand (mode : RoundingDirection) (neg : Bool) (p m : Nat) : Nat :=
  if m.log2 ≤ p then m <<< (p - m.log2)
  else
    let d := m.log2 - p
    let n := m >>> d
    if roundsUp mode neg n (m % 2 ^ d) d then n + 1 else n

/-- `fround_F(mode, q)` of 41_float_conversion.md R75 for `q = (-1)^neg * m / 2^sc`, with `sc <= B`: the biased exponent of
`q` is `log2 m - sc + B`. -/
def fround (f : FloatFormat) (mode : RoundingDirection) (neg : Bool) (m sc : Nat) : Word :=
  if m = 0 then 0#64
  else
    let n := roundedSignificand mode neg (fracBits f) m
    let e := m.log2 + bias f - sc
    if n = 2 ^ (fracBits f + 1) then packFloat f { sign := neg, e := e + 1, frac := 0 }
    else packFloat f { sign := neg, e := e, frac := n - 2 ^ fracBits f }

/-- The generic path of X2F: `fround_F(mode, sval(a) / 2^24)`, rounded once (41_float_conversion.md R74). -/
def x2fGeneric (mode : RoundingDirection) (f : FloatFormat) (a : Word) : Word :=
  fround f mode (sgn a) (uval (mag64 a)) Config.frac

/-- The fast path of X2F: round the integer storage to a float, then lower its exponent field by 24, with the guard that
answers +0.0 (41_float_conversion.md R78; log 17). -/
def x2fFast (mode : RoundingDirection) (f : FloatFormat) (a : Word) : Word :=
  let y := floatFields f (fround f mode (sgn a) (uval (mag64 a)) 0)
  if y.e < Config.frac + 1 then 0#64
  else packFloat f { y with e := y.e - Config.frac }

/-- X2F of a fixed-point word under a choice of path and direction (41_float_conversion.md R76, R77). -/
def fixedToFloat (fast : Bool) (mode : RoundingDirection) (f : FloatFormat) (a : Word) : Word :=
  if fast then x2fFast mode f a else x2fGeneric mode f a

/-- F2X.F32 (41_float_conversion.md R69). -/
def execF2xF32 (s : State) : StepOutcome :=
  transact (fun a _ => floatToFixed Config.fastFloatConv .f32 (floatOperand .f32 a)) s

/-- F2X.F64 (41_float_conversion.md R70). -/
def execF2xF64 (s : State) : StepOutcome :=
  transact (fun a _ => floatToFixed Config.fastFloatConv .f64 (floatOperand .f64 a)) s

/-- X2F.F32: the pattern in `r[31:0]`, zeros above (41_float_conversion.md R76). -/
def execX2fF32 (s : State) : StepOutcome :=
  transact (fun a _ => zext 32 (fixedToFloat Config.fastFloatConv Config.x2fRound .f32 a)) s

/-- X2F.F64 (41_float_conversion.md R77). -/
def execX2fF64 (s : State) : StepOutcome :=
  transact (fun a _ => fixedToFloat Config.fastFloatConv Config.x2fRound .f64 a) s

end Sys2Proof.Machine
end

