-- ==== Sys2Proof/Machine/IntConversion.lean ====
section
/-! DEFINITION. Integer conversions: I2X.S8 to I2X.U64, X2I.S32, X2I.S64 (40_int_conversion.md). -/

namespace Sys2Proof.Machine

/-- The signed construction: a sign-magnitude left shift of the assembled operand (40_int_conversion.md R50). -/
def signedToFixed (x : Word) : Word := applySign (sgn x) (lsl64 (mag64 x) Config.frac)

/-- The unsigned construction: a plain left shift (40_int_conversion.md R55). -/
def unsignedToFixed (x : Word) : Word := lsl64 x Config.frac

/-- The conversion to an integer: a sign-magnitude right shift, toward zero (40_int_conversion.md R61). -/
def fixedToInt (a : Word) : Word := applySign (sgn a) (lsr64 (mag64 a) Config.frac)

/-- I2X.S8 (40_int_conversion.md R51). -/
def execI2xS8 (s : State) : StepOutcome := transact (fun a _ => signedToFixed (sext 8 a)) s

/-- I2X.S16 (40_int_conversion.md R52). -/
def execI2xS16 (s : State) : StepOutcome := transact (fun a _ => signedToFixed (sext 16 a)) s

/-- I2X.S32 (40_int_conversion.md R53). -/
def execI2xS32 (s : State) : StepOutcome := transact (fun a _ => signedToFixed (sext 32 a)) s

/-- I2X.S64 (40_int_conversion.md R54). -/
def execI2xS64 (s : State) : StepOutcome := transact (fun a _ => signedToFixed a) s

/-- I2X.U8 (40_int_conversion.md R56). -/
def execI2xU8 (s : State) : StepOutcome := transact (fun a _ => unsignedToFixed (zext 8 a)) s

/-- I2X.U16 (40_int_conversion.md R57). -/
def execI2xU16 (s : State) : StepOutcome := transact (fun a _ => unsignedToFixed (zext 16 a)) s

/-- I2X.U32 (40_int_conversion.md R58). -/
def execI2xU32 (s : State) : StepOutcome := transact (fun a _ => unsignedToFixed (zext 32 a)) s

/-- I2X.U64 (40_int_conversion.md R59). -/
def execI2xU64 (s : State) : StepOutcome := transact (fun a _ => unsignedToFixed a) s

/-- X2I.S32: the low 32 bits of the truncated integer, sign-extended (40_int_conversion.md R62). -/
def execX2iS32 (s : State) : StepOutcome := transact (fun a _ => sext 32 (fixedToInt a)) s

/-- X2I.S64 (40_int_conversion.md R63). -/
def execX2iS64 (s : State) : StepOutcome := transact (fun a _ => fixedToInt a) s

end Sys2Proof.Machine
end

