-- ==== Sys2Proof/Machine/Dispatch.lean ====
section
/-! DEFINITION. One arm per operation (30_encoding.md R41). -/

namespace Sys2Proof.Machine

def exec (i : Instr) (s : State) : Host.Outcome State Fault Refusal :=
  match i with
  | .i2xS8 => Sys2Proof.Machine.execI2xS8 s
  | .i2xS16 => Sys2Proof.Machine.execI2xS16 s
  | .i2xS32 => Sys2Proof.Machine.execI2xS32 s
  | .i2xS64 => Sys2Proof.Machine.execI2xS64 s
  | .i2xU8 => Sys2Proof.Machine.execI2xU8 s
  | .i2xU16 => Sys2Proof.Machine.execI2xU16 s
  | .i2xU32 => Sys2Proof.Machine.execI2xU32 s
  | .i2xU64 => Sys2Proof.Machine.execI2xU64 s
  | .x2iS32 => Sys2Proof.Machine.execX2iS32 s
  | .x2iS64 => Sys2Proof.Machine.execX2iS64 s
  | .f2xF32 => Sys2Proof.Machine.execF2xF32 s
  | .f2xF64 => Sys2Proof.Machine.execF2xF64 s
  | .x2fF32 => Sys2Proof.Machine.execX2fF32 s
  | .x2fF64 => Sys2Proof.Machine.execX2fF64 s
  | .add => Sys2Proof.Machine.execAdd s
  | .sub => Sys2Proof.Machine.execSub s
  | .mul => Sys2Proof.Machine.execMul s
  | .div => Sys2Proof.Machine.execDiv s
  | .cmpeq => Sys2Proof.Machine.execCmpeq s
  | .cmpne => Sys2Proof.Machine.execCmpne s
  | .cmplt => Sys2Proof.Machine.execCmplt s
  | .cmple => Sys2Proof.Machine.execCmple s
  | .cmpgt => Sys2Proof.Machine.execCmpgt s
  | .cmpge => Sys2Proof.Machine.execCmpge s

end Sys2Proof.Machine
end

