-- ==== Sys2Proof/Machine/Step.lean ====
section
/-! DEFINITION. One step: the core answers the transaction the host presents (10_state.md R13, R19). -/

namespace Sys2Proof.Machine

/-- One step. The core decodes `op` alone (30_encoding.md R45) and answers the transaction with the operation's meaning; a
reserved code is refused by name (R43); with no transaction presented there is no step (10_state.md R13; log 3). -/
def step (s : State) : Host.Outcome State Fault Refusal :=
  match s.requests with
  | [] => .refused .noTransaction
  | q :: _ =>
    match decode q.op with
    | .op i => exec i s
    | .reserved code => .refused (.reservedOpCode code)

/-- The host's placing of a table word where `step` reads its next operation: the `op` port (log 4). -/
def State.withFetchWord (s : State) (nbits w : Nat) : State := s.withOpCode (tableOpCode nbits w)

end Sys2Proof.Machine
end

