-- ==== Sys2Proof/Machine/Pseudo.lean ====
section
/-! DEFINITION. The pseudo-operations of 46_mixed_type_and_pseudo.md: fixed sequences of one or two transactions the host
presents. None has an op code; "its meaning is the meaning of that sequence and nothing else". -/

namespace Sys2Proof.Machine

/-- The answer of the core to one transaction presented alone; `none` where the model refuses it (10_state.md R19). -/
def ask (i : Instr) (a b : Word) : Option Word :=
  match step (State.reset.present { op := encode i, a := a, b := b }) with
  | .next t => t.r
  | .fault _ => none
  | .refused _ => none

/-- The ten two-operand operations (46_mixed_type_and_pseudo.md R117). -/
inductive BinaryOp
  | add
  | sub
  | mul
  | div
  | cmpeq
  | cmpne
  | cmplt
  | cmple
  | cmpgt
  | cmpge
  deriving DecidableEq, Repr

/-- The operation a two-operand operator stands for (30_encoding.md R47). -/
def BinaryOp.instr : BinaryOp → Instr
  | .add => .add
  | .sub => .sub
  | .mul => .mul
  | .div => .div
  | .cmpeq => .cmpeq
  | .cmpne => .cmpne
  | .cmplt => .cmplt
  | .cmple => .cmple
  | .cmpgt => .cmpgt
  | .cmpge => .cmpge

/-- The native numeric types of an operand (46_mixed_type_and_pseudo.md R117, R118). -/
inductive NativeType
  | s8
  | s16
  | s32
  | s64
  | u8
  | u16
  | u32
  | u64
  | f32
  | f64
  deriving DecidableEq, Repr

/-- The conversion that constructs a fixed-point value from a native one: I2X.T or F2X.F (30_encoding.md R47). -/
def NativeType.conversion : NativeType → Instr
  | .s8 => .i2xS8
  | .s16 => .i2xS16
  | .s32 => .i2xS32
  | .s64 => .i2xS64
  | .u8 => .i2xU8
  | .u16 => .i2xU16
  | .u32 => .i2xU32
  | .u64 => .i2xU64
  | .f32 => .f2xF32
  | .f64 => .f2xF64

/-- `a OP n`: convert the native operand, then operate (46_mixed_type_and_pseudo.md R116 to R118). -/
def mixedRight (o : BinaryOp) (t : NativeType) (a n : Word) : Option Word :=
  match ask t.conversion n 0#64 with
  | some x => ask o.instr a x
  | none => none

/-- `n OP a`: the native operand on the left (46_mixed_type_and_pseudo.md R117, R118). -/
def mixedLeft (o : BinaryOp) (t : NativeType) (n a : Word) : Option Word :=
  match ask t.conversion n 0#64 with
  | some x => ask o.instr x a
  | none => none

/-- ZERO, the default construction: the host's constant (46_mixed_type_and_pseudo.md R121). -/
def zeroWord : Word := 0#64

/-- NEG, the unary minus: `SUB 0, a` (46_mixed_type_and_pseudo.md R120). -/
def negPseudo (a : Word) : Option Word := ask .sub zeroWord a

/-- The four compound assignments `+= -= *= /=` (46_mixed_type_and_pseudo.md R119). -/
inductive AssignOp
  | add
  | sub
  | mul
  | div
  deriving DecidableEq, Repr

/-- The operation of a compound assignment (46_mixed_type_and_pseudo.md R119). -/
def AssignOp.binary : AssignOp → BinaryOp
  | .add => .add
  | .sub => .sub
  | .mul => .mul
  | .div => .div

/-- `a OP= b`: the word the host stores in the place `a` was read from (46_mixed_type_and_pseudo.md R119). -/
def assignPseudo (o : AssignOp) (a b : Word) : Option Word := ask o.binary.instr a b

end Sys2Proof.Machine
end

