-- ==== Sys2Proof/Machine/Assembler.lean ====
section
/-! DEFINITION. The transaction lines of 30_encoding.md R46: `dst = MNEMONIC src_a` and `dst = MNEMONIC src_a, src_b`, with
names the host gives to responses. The names are the host's temporaries, no registers of the core (log 18). -/

namespace Sys2Proof.Machine

/-- A source: a literal word or the name of an earlier result (30_encoding.md R46). -/
inductive Source
  | literal (w : Word)
  | name (n : Nat)
  deriving DecidableEq, Repr

/-- One line: the name given to the response, the operation, its first source and, for a two-operand operation, its second
(30_encoding.md R46). The type also admits the lines R46 does not have, a second source missing or one too many: the model's
choice for them is at `Line.secondValue` (log 18). -/
structure Line where
  dst  : Nat
  op   : Instr
  srcA : Source
  srcB : Option Source
  deriving DecidableEq, Repr

/-- The host's named values, the latest first (30_encoding.md R46: a name may be reused). -/
abbrev Names := List (Nat × Word)

/-- The word a source stands for; a name the host has not obtained has none (10_state.md R27). -/
def Source.value (env : Names) : Source → Option Word
  | .literal w => some w
  | .name n => (env.find? (fun p => p.1 == n)).map (·.2)

/-- The word driven on port `b`: zero for a one-operand line, where any value gives the same result (30_encoding.md R40).
DESIGN CHOICE (log 18): R46 has no line whose operand count does not fit its operation. Here a two-operand operation with no
second source reads zero as its second operand (`ADD a` is `ADD a, 0`), and a one-operand operation with a second source is
accepted: that source must have a value, which the operation then ignores. -/
def Line.secondValue (env : Names) (l : Line) : Option Word :=
  match l.srcB with
  | some s => s.value env
  | none => some 0#64

/-- Run one line: present the transaction and name its response. -/
def Line.run (env : Names) (l : Line) : Option Names :=
  match l.srcA.value env, l.secondValue env with
  | some a, some b => (ask l.op a b).map (fun r => (l.dst, r) :: env)
  | _, _ => none

/-- Run lines in order (70_reset_and_hazards.md R138). -/
def runLines : List Line → Names → Option Names
  | [], env => some env
  | l :: ls, env =>
    match l.run env with
    | some env' => runLines ls env'
    | none => none

end Sys2Proof.Machine
end

