-- ==== Sys2Proof/Safety.lean ====
section
/-! DEFINITION. The terms claims are stated in: the host's duty that makes a run safe, what a run answers, and the real
(rational) readings of words and float patterns of 00_scope.md section 6 and 41_float_conversion.md R66, R75. Nothing here
is run by the machine. -/

namespace Sys2Proof.Machine

/-- The host's duty (30_encoding.md R43, 70_reset_and_hazards.md R139): no presented transaction has a reserved op code. -/
def PendingDefined (s : State) : Prop := ∀ q ∈ s.requests, q.wf = true

/-- What `k` steps from a state answer: each transaction with the response it got, in order, up to the first step that gives
no next state (70_reset_and_hazards.md R138, R143). -/
def transcript : Nat → State → List (Request × Option Word)
  | 0, _ => []
  | k + 1, s =>
    match s.requests, step s with
    | q :: _, .next t => (q, t.r) :: transcript k t
    | _, _ => []

/-- `rval(w) = sval(w) / 2^24` (00_scope.md section 6.1, 10_state.md R14). -/
def rval (w : Word) : ℚ := (w.toInt : ℚ) / 2 ^ 24

/-- `trunc(q)`: the integer toward zero (00_scope.md section 6.2). -/
def truncRat (q : ℚ) : ℤ := if 0 ≤ q then ⌊q⌋ else ⌈q⌉

/-- The literal `v q` of 30_encoding.md R46: `word(trunc(v * 2^24))`. -/
def qLiteral (v : ℚ) : Word := word (truncRat (v * 2 ^ 24))

/-- `fval(v)` of a finite pattern as a rational (41_float_conversion.md R66). -/
def fvalRat (f : FloatFormat) (v : Word) : ℚ :=
  let x := floatFields f v
  let s : ℚ := if x.sign then -1 else 1
  if x.e = 0 then s * x.frac * (2 : ℚ) ^ ((1 : ℤ) - bias f - fracBits f)
  else s * (2 ^ fracBits f + x.frac) * (2 : ℚ) ^ ((x.e : ℤ) - bias f - fracBits f)

/-- `x` rounded to an integer, for `x >= 0` of a value of sign `neg` (41_float_conversion.md R75). -/
def roundRat (mode : RoundingDirection) (neg : Bool) (x : ℚ) : ℤ :=
  match mode with
  | .tiesToEven =>
    if x - ⌊x⌋ < 1 / 2 then ⌊x⌋
    else if 1 / 2 < x - ⌊x⌋ then ⌊x⌋ + 1
    else if ⌊x⌋ % 2 = 0 then ⌊x⌋
    else ⌊x⌋ + 1
  | .towardZero => ⌊x⌋
  | .towardPositive => if neg then ⌊x⌋ else ⌈x⌉
  | .towardNegative => if neg then ⌈x⌉ else ⌊x⌋

/-- `fround_F(mode, q)` as 41_float_conversion.md R75 writes it, on rationals: `E = floor(log2 |q|)`, `x = |q| / 2^(E - P)`,
`n` the rounded `x`, a carry into the next binade, then the fields. -/
def froundRat (f : FloatFormat) (mode : RoundingDirection) (q : ℚ) : Word :=
  if q = 0 then 0#64
  else
    let neg : Bool := decide (q < 0)
    let e : ℤ := Int.log 2 |q|
    let n : ℤ := roundRat mode neg (|q| / (2 : ℚ) ^ (e - fracBits f))
    if n = 2 ^ (fracBits f + 1) then
      packFloat f { sign := neg, e := (e + 1 + bias f).toNat, frac := 0 }
    else
      packFloat f { sign := neg, e := (e + bias f).toNat, frac := (n - 2 ^ fracBits f).toNat }

/-- The patterns inside the domain of F2X, as 41_float_conversion.md R68 lists them. -/
def inDomainPattern (f : FloatFormat) (v : Word) : Bool :=
  match f with
  | .f32 => decide ((floatFields .f32 v).e ≤ 165) || v == 0xD3000000#64
  | .f64 => decide ((floatFields .f64 v).e ≤ 1061) || v == 0xC260000000000000#64

end Sys2Proof.Machine
end

