-- ==== Sys2Proof/Certificates/Slice0/Obligations.lean ====
section
/-! DEFINITION. The statements for the provers. Each says what it formalises; a statement that rests on a decision or a
derivation the spec marks as its own, or on a choice of the model, says so. -/

open Sys2Proof Sys2Proof.Machine

/-! ### Encoding -/

/-- The 24 op codes of 30_encoding.md (the table of the section on operand and result assembly), each written out bit by bit,
decode to their operations. The numbering is the spec's decision D10. -/
def Obligations.EveryOpCodeOfTheTableDecodes : Prop :=
  decode 0b00000000#8 = .op .i2xS8 ∧ decode 0b00000001#8 = .op .i2xS16 ∧
  decode 0b00000010#8 = .op .i2xS32 ∧ decode 0b00000011#8 = .op .i2xS64 ∧
  decode 0b00000100#8 = .op .i2xU8 ∧ decode 0b00000101#8 = .op .i2xU16 ∧
  decode 0b00000110#8 = .op .i2xU32 ∧ decode 0b00000111#8 = .op .i2xU64 ∧
  decode 0b00010010#8 = .op .x2iS32 ∧ decode 0b00010011#8 = .op .x2iS64 ∧
  decode 0b00100010#8 = .op .f2xF32 ∧ decode 0b00100011#8 = .op .f2xF64 ∧
  decode 0b00110010#8 = .op .x2fF32 ∧ decode 0b00110011#8 = .op .x2fF64 ∧
  decode 0b01000000#8 = .op .add ∧ decode 0b01000001#8 = .op .sub ∧
  decode 0b01000010#8 = .op .mul ∧ decode 0b01000011#8 = .op .div ∧
  decode 0b01010000#8 = .op .cmpeq ∧ decode 0b01010001#8 = .op .cmpne ∧
  decode 0b01010010#8 = .op .cmplt ∧ decode 0b01010011#8 = .op .cmple ∧
  decode 0b01010100#8 = .op .cmpgt ∧ decode 0b01010101#8 = .op .cmpge

/-- A whole transaction survives its 136-bit packing: decoding the encoding of any operation with any operands gives them
back, every number that decodes to an operation is the encoding of it, and `op`, `a`, `b` stand at bits 135..128, 127..64 and
63..0 (30_encoding.md, the one format; decisions D2, D10). -/
def Obligations.TransactionEncodingRoundTrip : Prop :=
  (∀ (i : Instr) (a b : Word), decodeTransaction (encodeTransaction i a b) = .txn i a b) ∧
  (∀ (n : BitVec 136) (i : Instr) (a b : Word),
    decodeTransaction n = .txn i a b → encodeTransaction i a b = n) ∧
  (∀ (i : Instr) (a b : Word),
    (encodeTransaction i a b).toNat = (encode i).toNat * 2 ^ 128 + a.toNat * 2 ^ 64 + b.toNat)

/-- The decoder is total: it answers "reserved" on exactly the ranges 30_encoding.md lists (section on reserved encodings,
decision D11), an operation on exactly the codes whose fields are defined (the group and function table, decision D10), and
24 codes are defined. -/
def Obligations.DecoderRefusesExactlyTheReservedCodes : Prop :=
  (∀ op : OpCode,
    (decode op = .reserved op ↔
      ((0x08 ≤ op.toNat ∧ op.toNat ≤ 0x11) ∨ (0x14 ≤ op.toNat ∧ op.toNat ≤ 0x21) ∨
       (0x24 ≤ op.toNat ∧ op.toNat ≤ 0x31) ∨ (0x34 ≤ op.toNat ∧ op.toNat ≤ 0x3F) ∨
       (0x44 ≤ op.toNat ∧ op.toNat ≤ 0x4F) ∨ (0x56 ≤ op.toNat ∧ op.toNat ≤ 0xFF))) ∧
    ((∃ i : Instr, decode op = .op i) ↔ opDefined op = true) ∧
    (∀ c : OpCode, decode op = .reserved c → c = op)) ∧
  ((List.range 256).filter (fun n => opDefined (BitVec.ofNat 8 n))).length = 24

/-! ### The step, the run, reset -/

/-- When the presented op code decodes to an operation, the step is that operation's meaning at that state; nothing is added
around it. -/
def Obligations.StepRunsTheDecodedOperation : Prop :=
  ∀ (q : Request) (rest : List Request) (r0 : Option Word) (i : Instr),
    decode q.op = .op i → step ⟨q :: rest, r0⟩ = exec i ⟨q :: rest, r0⟩

/-- The outcomes of a step (60_exceptions.md, the table of outcomes; decisions D11, D18): a next state with a response for
every defined op code with every operand, a refusal by name for a reserved one, and DIV under `DIV_POLICY = FLOAT` refused.
That a step with no transaction is refused is the model's choice (log 3). -/
def Obligations.StepOutcomesAreExactlyThese : Prop :=
  (∀ (q : Request) (rest : List Request) (r0 : Option Word), opDefined q.op = true →
    ∃ w : Word, step ⟨q :: rest, r0⟩ = .next ⟨rest, some w⟩) ∧
  (∀ (q : Request) (rest : List Request) (r0 : Option Word), opDefined q.op = false →
    step ⟨q :: rest, r0⟩ = .refused (.reservedOpCode q.op)) ∧
  (∀ r0 : Option Word, step ⟨[], r0⟩ = .refused .noTransaction) ∧
  (∀ s : State, divUnder .float s = .refused .divPolicyFloat)

/-- 00_scope.md R12: one total function of the operation and the two operands gives the response of every operation, in every
state that presents a transaction, and nothing else changes. -/
def Obligations.EveryOperationIsOnePureTotalFunction : Prop :=
  ∃ respond : Instr → Word → Word → Word,
    (∀ (i : Instr) (op : OpCode) (a b : Word) (rest : List Request) (r0 : Option Word),
      exec i ⟨⟨op, a, b⟩ :: rest, r0⟩ = .next ⟨rest, some (respond i a b)⟩) ∧
    (∀ (i : Instr) (a b : Word) (rest : List Request) (r0 : Option Word),
      step ⟨⟨encode i, a, b⟩ :: rest, r0⟩ = .next ⟨rest, some (respond i a b)⟩)

/-- The answer to a transaction depends on the request alone: neither on what is presented after it nor on what was answered
before (10_state.md, the transaction; 20_memory.md, atomicity; decisions D1, D9). Refusals depend on it alone too. -/
def Obligations.AnswerDependsOnTheRequestAlone : Prop :=
  ∀ (q : Request) (rest rest' : List Request) (r0 r0' : Option Word),
    (∀ t : State, step ⟨q :: rest, r0⟩ = .next t →
      ∃ w : Word, t = ⟨rest, some w⟩ ∧ step ⟨q :: rest', r0'⟩ = .next ⟨rest', some w⟩) ∧
    (∀ x : Refusal, step ⟨q :: rest, r0⟩ = .refused x → step ⟨q :: rest', r0'⟩ = .refused x)

/-- The responses of a sequence of transactions are the same whatever order they are answered in (20_memory.md, ordering; a
derivation of the spec): the (request, response) pairs of a permuted run are the permuted pairs, and each transaction of the
run has its pair. -/
def Obligations.ResponsesDoNotDependOnTheOrder : Prop :=
  ∀ (qs qs' : List Request) (r0 r0' : Option Word),
    (∀ q ∈ qs, opDefined q.op = true) → qs.Perm qs' →
      (transcript qs.length ⟨qs, r0⟩).Perm (transcript qs'.length ⟨qs', r0'⟩) ∧
      (transcript qs.length ⟨qs, r0⟩).map (fun p => p.1) = qs ∧
      ∀ p ∈ transcript qs.length ⟨qs, r0⟩, p.2.isSome = true

/-- Every transaction with a defined op code is answered, one a step, from every state (70_reset_and_hazards.md, timing and
the run; decisions D9, D29): after n steps exactly the first n are gone. -/
def Obligations.EveryPresentedTransactionIsAnswered : Prop :=
  ∀ s : State, PendingDefined s → ∀ n : Nat, n ≤ s.requests.length →
    ∃ r : Option Word, Sys2Proof.core.run n s = .next ⟨s.requests.drop n, r⟩ ∧
      (0 < n → r.isSome = true)

/-- The host's duty (70_reset_and_hazards.md, the host interface; decision D11) is an invariant: a step keeps it, presenting a
defined transaction keeps it, and under it the core answers whenever a transaction is presented. -/
def Obligations.StepKeepsEveryPendingCodeDefined : Prop :=
  (∀ s t : State, PendingDefined s → step s = .next t → PendingDefined t) ∧
  (∀ (s : State) (q : Request), PendingDefined s → opDefined q.op = true →
    PendingDefined (s.present q)) ∧
  (∀ s : State, PendingDefined s → ((∃ t : State, step s = .next t) ↔ s.requests ≠ []))

/-- After reset no transaction is presented and `r` has no value (10_state.md section on reset values, decision D27; log 1 and
log 2); the invariant holds there; and every transaction presented then is answered according to the rules. -/
def Obligations.ResetSetsNothingAndMeetsTheInvariant : Prop :=
  PendingDefined State.reset ∧ State.reset.requests = [] ∧ State.reset.r = none ∧
  ∀ (i : Instr) (a b : Word),
    step (State.reset.present ⟨encode i, a, b⟩) = exec i ⟨[⟨encode i, a, b⟩], none⟩

/-- 60_exceptions.md R123: no operation and no step raises an exception, for any operands, and there is no cause code. -/
def Obligations.NoExceptionIsEverRaised : Prop :=
  IsEmpty Fault ∧ (∀ (s : State) (x : Fault), step s ≠ .fault x) ∧
  (∀ (i : Instr) (s : State) (x : Fault), exec i s ≠ .fault x)

/-- One-operand operations do not depend on `b`, and narrow operands not on the upper bits of `a` (30_encoding.md section on
operand assembly, decision D8). -/
def Obligations.UnusedOperandBitsAreIgnored : Prop :=
  (∀ i ∈ [Instr.i2xS8, .i2xS16, .i2xS32, .i2xS64, .i2xU8, .i2xU16, .i2xU32, .i2xU64, .x2iS32, .x2iS64,
      .f2xF32, .f2xF64, .x2fF32, .x2fF64],
    ∀ (op : OpCode) (a b b' : Word) (rest : List Request) (r0 : Option Word),
      exec i ⟨⟨op, a, b⟩ :: rest, r0⟩ = exec i ⟨⟨op, a, b'⟩ :: rest, r0⟩) ∧
  (∀ p ∈ [((8 : Nat), Instr.i2xS8), (8, .i2xU8), (16, .i2xS16), (16, .i2xU16), (32, .i2xS32), (32, .i2xU32),
      (32, .f2xF32)],
    ∀ (op : OpCode) (a a' b : Word) (rest : List Request) (r0 : Option Word),
      a.toNat % 2 ^ p.1 = a'.toNat % 2 ^ p.1 →
        exec p.2 ⟨⟨op, a, b⟩ :: rest, r0⟩ = exec p.2 ⟨⟨op, a', b⟩ :: rest, r0⟩)

/-! ### Integer conversions -/

/-- 40_int_conversion.md R51 to R53: I2X.S8, I2X.S16 and I2X.S32 answer the sign-magnitude left shift by 24 of the
sign-extended low bits of `a`, which is exact; the rest of `a` is ignored; the rules' corner cases and examples. -/
def Obligations.NarrowSignedIntegersConvertExactly : Prop :=
  decode 0x00#8 = .op .i2xS8 ∧ decode 0x01#8 = .op .i2xS16 ∧ decode 0x02#8 = .op .i2xS32 ∧
  (∀ (op : OpCode) (a b : Word) (rest : List Request) (r0 : Option Word),
    (let x : Word := (a.setWidth 8).signExtend 64
     let r : Word := if x.msb then -((-x) <<< 24) else x <<< 24
     exec .i2xS8 ⟨⟨op, a, b⟩ :: rest, r0⟩ = .next ⟨rest, some r⟩ ∧
       r.toInt = (a.setWidth 8).toInt * 2 ^ 24) ∧
    (let x : Word := (a.setWidth 16).signExtend 64
     let r : Word := if x.msb then -((-x) <<< 24) else x <<< 24
     exec .i2xS16 ⟨⟨op, a, b⟩ :: rest, r0⟩ = .next ⟨rest, some r⟩ ∧
       r.toInt = (a.setWidth 16).toInt * 2 ^ 24) ∧
    (let x : Word := (a.setWidth 32).signExtend 64
     let r : Word := if x.msb then -((-x) <<< 24) else x <<< 24
     exec .i2xS32 ⟨⟨op, a, b⟩ :: rest, r0⟩ = .next ⟨rest, some r⟩ ∧
       r.toInt = (a.setWidth 32).toInt * 2 ^ 24)) ∧
  ask .i2xS8 0x80#64 0#64 = some 0xFFFFFFFF80000000#64 ∧
  ask .i2xS8 0x7F#64 0#64 = some 0x7F000000#64 ∧
  ask .i2xS16 0x8000#64 0#64 = some 0xFFFFFF8000000000#64 ∧
  ask .i2xS32 0x80000000#64 0#64 = some 0xFF80000000000000#64 ∧
  ask .i2xS32 0xFFFFFFFF#64 0#64 = some 0xFFFFFFFFFF000000#64

/-- 40_int_conversion.md R54: I2X.S64 answers the sign-magnitude left shift by 24 of `a`; exact for -2^39 to 2^39 - 1, wrapped
outside; the rule's corner cases and example. -/
def Obligations.SignedWordConvertsExactlyOrWraps : Prop :=
  decode 0x03#8 = .op .i2xS64 ∧
  (∀ (op : OpCode) (a b : Word) (rest : List Request) (r0 : Option Word),
    let r : Word := if a.msb then -((-a) <<< 24) else a <<< 24
    exec .i2xS64 ⟨⟨op, a, b⟩ :: rest, r0⟩ = .next ⟨rest, some r⟩ ∧
    (-2 ^ 39 ≤ a.toInt ∧ a.toInt ≤ 2 ^ 39 - 1 → r.toInt = a.toInt * 2 ^ 24) ∧
    r = BitVec.ofInt 64 (a.toInt * 2 ^ 24)) ∧
  ask .i2xS64 0x0000008000000000#64 0#64 = some 0x8000000000000000#64 ∧
  ask .i2xS64 0x0000010000000000#64 0#64 = some 0#64 ∧
  ask .i2xS64 0x7FFFFFFFFFFFFFFF#64 0#64 = some 0xFFFFFFFFFF000000#64 ∧
  ask .i2xS64 0x8000000000000000#64 0#64 = some 0#64 ∧
  ask .i2xS64 0xFFFFFFFFFFFFFFFD#64 0#64 = some 0xFFFFFFFFFD000000#64

/-- 40_int_conversion.md R56 to R58: I2X.U8, I2X.U16 and I2X.U32 answer the low bits of `a`, zero-extended and shifted left by
24, always exactly; the rest of `a` is ignored; the rules' examples. -/
def Obligations.NarrowUnsignedIntegersConvertExactly : Prop :=
  decode 0x04#8 = .op .i2xU8 ∧ decode 0x05#8 = .op .i2xU16 ∧ decode 0x06#8 = .op .i2xU32 ∧
  (∀ (op : OpCode) (a b : Word) (rest : List Request) (r0 : Option Word),
    (let r : Word := ((a.setWidth 8).setWidth 64) <<< 24
     exec .i2xU8 ⟨⟨op, a, b⟩ :: rest, r0⟩ = .next ⟨rest, some r⟩ ∧
       r.toInt = (a.toNat % 2 ^ 8 : Nat) * 2 ^ 24) ∧
    (let r : Word := ((a.setWidth 16).setWidth 64) <<< 24
     exec .i2xU16 ⟨⟨op, a, b⟩ :: rest, r0⟩ = .next ⟨rest, some r⟩ ∧
       r.toInt = (a.toNat % 2 ^ 16 : Nat) * 2 ^ 24) ∧
    (let r : Word := ((a.setWidth 32).setWidth 64) <<< 24
     exec .i2xU32 ⟨⟨op, a, b⟩ :: rest, r0⟩ = .next ⟨rest, some r⟩ ∧
       r.toInt = (a.toNat % 2 ^ 32 : Nat) * 2 ^ 24)) ∧
  ask .i2xU8 0xFF#64 0#64 = some 0xFF000000#64 ∧
  ask .i2xU16 0xFFFF#64 0#64 = some 0x000000FFFF000000#64 ∧
  ask .i2xU32 0xFFFFFFFF#64 0#64 = some 0x00FFFFFFFF000000#64 ∧
  ask .i2xS32 0xFFFFFFFF#64 0#64 ≠ ask .i2xU32 0xFFFFFFFF#64 0#64

/-- 40_int_conversion.md R59: I2X.U64 answers `a` shifted left by 24; exact up to 2^39 - 1; from 2^39 to 2^40 - 1 no bit is
lost but the word reads negative; from 2^40 the bits 63..40 of `a` are lost; the rule's corner cases and example. -/
def Obligations.UnsignedWordConvertsExactlyOrWraps : Prop :=
  decode 0x07#8 = .op .i2xU64 ∧
  (∀ (op : OpCode) (a b : Word) (rest : List Request) (r0 : Option Word),
    let r : Word := a <<< 24
    exec .i2xU64 ⟨⟨op, a, b⟩ :: rest, r0⟩ = .next ⟨rest, some r⟩ ∧
    (r.toInt = a.toNat * 2 ^ 24 ↔ a.toNat ≤ 2 ^ 39 - 1) ∧
    (2 ^ 39 ≤ a.toNat ∧ a.toNat ≤ 2 ^ 40 - 1 → r.toNat = a.toNat * 2 ^ 24 ∧ r.toInt < 0) ∧
    (2 ^ 40 ≤ a.toNat → r.toNat = a.toNat % 2 ^ 40 * 2 ^ 24)) ∧
  ask .i2xU64 0x0000008000000000#64 0#64 = some 0x8000000000000000#64 ∧
  ask .i2xU64 0x0000010000000000#64 0#64 = some 0#64 ∧
  ask .i2xU64 0xFFFFFFFFFFFFFFFF#64 0#64 = some 0xFFFFFFFFFF000000#64 ∧
  ask .i2xU64 0x0000007FFFFFFFFF#64 0#64 = some 0x7FFFFFFFFF000000#64

/-- X2I.S32 and X2I.S64 (40_int_conversion.md section 3; decisions D13, D15, D23): the sign-magnitude right shift by 24; S32
keeps the low 32 bits and sign-extends them, so it is right when the integer fits and wraps silently when it does not. -/
def Obligations.FixedConvertsToSignedIntegers : Prop :=
  decode 0x12#8 = .op .x2iS32 ∧ decode 0x13#8 = .op .x2iS64 ∧
  (∀ (op : OpCode) (a b : Word) (rest : List Request) (r0 : Option Word),
    let v : Word := if a.msb then -((-a) >>> 24) else a >>> 24
    exec .x2iS64 ⟨⟨op, a, b⟩ :: rest, r0⟩ = .next ⟨rest, some v⟩ ∧
    exec .x2iS32 ⟨⟨op, a, b⟩ :: rest, r0⟩ = .next ⟨rest, some ((v.setWidth 32).signExtend 64)⟩ ∧
    (-2 ^ 39 ≤ v.toInt ∧ v.toInt ≤ 2 ^ 39 - 1) ∧
    (-2 ^ 31 ≤ v.toInt ∧ v.toInt ≤ 2 ^ 31 - 1 → ((v.setWidth 32).signExtend 64) = v)) ∧
  ask .x2iS32 0x0080000000000000#64 0#64 = some 0xFFFFFFFF80000000#64 ∧
  ask .x2iS32 0x7FFFFFFFFFFFFFFF#64 0#64 = some 0xFFFFFFFFFFFFFFFF#64 ∧
  ask .x2iS32 0xFFFFFFFFF9000000#64 0#64 = some 0xFFFFFFFFFFFFFFF9#64 ∧
  ask .x2iS64 0x8000000000000000#64 0#64 = some 0xFFFFFF8000000000#64 ∧
  ask .x2iS64 0x0000000000FFFFFF#64 0#64 = some 0#64 ∧
  ask .x2iS64 0xFFFFFFFFFF000001#64 0#64 = some 0#64 ∧
  ask .x2iS64 0x0000000002800000#64 0#64 = some 2#64

/-- X2I truncates the real value toward zero, it does not floor (40_int_conversion.md section 3; decisions D13, D15). -/
def Obligations.IntegerConversionTruncatesTowardZero : Prop :=
  ∀ (op : OpCode) (a b : Word) (rest : List Request) (r0 : Option Word),
    ∃ v : Word, exec .x2iS64 ⟨⟨op, a, b⟩ :: rest, r0⟩ = .next ⟨rest, some v⟩ ∧
      v.toInt = truncRat (rval a) ∧ v.toInt = a.toInt.tdiv (2 ^ 24)

/-- For every operand the sign-magnitude construction is the modular product with 2^24, the two 64-bit constructions agree,
and the low 24 bits of the result are zero (40_int_conversion.md section 2, a derivation of the spec). -/
def Obligations.IntegerConstructionIsTheModularProduct : Prop :=
  ∀ (op : OpCode) (a b : Word) (rest : List Request) (r0 : Option Word),
    exec .i2xS8 ⟨⟨op, a, b⟩ :: rest, r0⟩ = .next ⟨rest, some (word ((a.setWidth 8).toInt * 2 ^ 24))⟩ ∧
    exec .i2xS16 ⟨⟨op, a, b⟩ :: rest, r0⟩ = .next ⟨rest, some (word ((a.setWidth 16).toInt * 2 ^ 24))⟩ ∧
    exec .i2xS32 ⟨⟨op, a, b⟩ :: rest, r0⟩ = .next ⟨rest, some (word ((a.setWidth 32).toInt * 2 ^ 24))⟩ ∧
    exec .i2xS64 ⟨⟨op, a, b⟩ :: rest, r0⟩ = .next ⟨rest, some (word (a.toInt * 2 ^ 24))⟩ ∧
    exec .i2xU8 ⟨⟨op, a, b⟩ :: rest, r0⟩ = .next ⟨rest, some (word ((a.toNat % 2 ^ 8 : Nat) * 2 ^ 24))⟩ ∧
    exec .i2xU16 ⟨⟨op, a, b⟩ :: rest, r0⟩ = .next ⟨rest, some (word ((a.toNat % 2 ^ 16 : Nat) * 2 ^ 24))⟩ ∧
    exec .i2xU32 ⟨⟨op, a, b⟩ :: rest, r0⟩ = .next ⟨rest, some (word ((a.toNat % 2 ^ 32 : Nat) * 2 ^ 24))⟩ ∧
    exec .i2xU64 ⟨⟨op, a, b⟩ :: rest, r0⟩ = .next ⟨rest, some (word (a.toNat * 2 ^ 24))⟩ ∧
    exec .i2xS64 ⟨⟨op, a, b⟩ :: rest, r0⟩ = exec .i2xU64 ⟨⟨op, a, b⟩ :: rest, r0⟩ ∧
    ∀ n : Int, (word (n * 2 ^ 24)).toNat % 2 ^ 24 = 0

/-- Integer round trips (40_int_conversion.md section 3, a derivation of the spec): an integer in range comes back; a
fixed-point word comes back with its fraction cleared toward zero, and unchanged exactly when it has no fraction bits. -/
def Obligations.IntegerRoundTrips : Prop :=
  (∀ x : Word, -2 ^ 39 ≤ x.toInt ∧ x.toInt ≤ 2 ^ 39 - 1 →
    ∃ t : Word, ask .i2xS64 x 0#64 = some t ∧ ask .x2iS64 t 0#64 = some x) ∧
  (∀ x : Word, -2 ^ 31 ≤ x.toInt ∧ x.toInt ≤ 2 ^ 31 - 1 →
    ∃ t : Word, ask .i2xS32 x 0#64 = some t ∧ ask .x2iS32 t 0#64 = some x) ∧
  (∀ a : Word, ∃ v w : Word, ask .x2iS64 a 0#64 = some v ∧ ask .i2xS64 v 0#64 = some w ∧
    w.toInt = a.toInt.tdiv (2 ^ 24) * 2 ^ 24 ∧ (w = a ↔ a.toNat % 2 ^ 24 = 0))

/-! ### Float conversions -/

/-- The field layout of the two float formats (41_float_conversion.md, the format table; decision D30), read from port `a`,
and that packing the fields gives the pattern back. -/
def Obligations.FloatFieldLayout : Prop :=
  (∀ a : Word, floatFields .f32 (floatOperand .f32 a) =
    ⟨a.getLsbD 31, (a.extractLsb' 23 8).toNat, (a.extractLsb' 0 23).toNat⟩) ∧
  (∀ a : Word, floatFields .f64 (floatOperand .f64 a) =
    ⟨a.getLsbD 63, (a.extractLsb' 52 11).toNat, (a.extractLsb' 0 52).toNat⟩) ∧
  (∀ (f : FloatFormat) (a : Word),
    packFloat f (floatFields f (floatOperand f a)) = floatOperand f a)

/-- 41_float_conversion.md R69: F2X.F32 truncates the exact `fval(v) * 2^24` of a finite pattern and answers the open value
`F2X_INVALID` on an infinity, a NaN or an out-of-range value, under either setting of `FAST_FLOAT_CONV`; the rule's corner
cases and example. -/
def Obligations.Binary32ConvertsByTruncation : Prop :=
  decode 0x22#8 = .op .f2xF32 ∧
  (∀ (op : OpCode) (a b : Word) (rest : List Request) (r0 : Option Word),
    let v : Word := (a.setWidth 32).setWidth 64
    let x := floatFields .f32 v
    let t : ℤ := truncRat (fvalRat .f32 v * 2 ^ 24)
    ∃ r : Word, exec .f2xF32 ⟨⟨op, a, b⟩ :: rest, r0⟩ = .next ⟨rest, some r⟩ ∧
      (x.e = 255 → r = Config.f2xInvalid .f32 v) ∧
      (x.e < 255 → r = if -2 ^ 63 ≤ t ∧ t ≤ 2 ^ 63 - 1 then BitVec.ofInt 64 t else Config.f2xInvalid .f32 v) ∧
      (x.e = 0 → r = 0#64) ∧
      (x.e < 255 → |fvalRat .f32 v| < (2 : ℚ) ^ (-24 : ℤ) → r = 0#64) ∧
      (x.e < 255 → 1 ≤ |fvalRat .f32 v| → -2 ^ 63 ≤ t ∧ t ≤ 2 ^ 63 - 1 → rval r = fvalRat .f32 v)) ∧
  ask .f2xF32 0x00000000#64 0#64 = some 0#64 ∧
  ask .f2xF32 0x80000000#64 0#64 = some 0#64 ∧
  ask .f2xF32 0x33800000#64 0#64 = some 1#64 ∧
  ask .f2xF32 0xB3800000#64 0#64 = some 0xFFFFFFFFFFFFFFFF#64 ∧
  ask .f2xF32 0x52FFFFFF#64 0#64 = some 0x7FFFFF8000000000#64 ∧
  ask .f2xF32 0xD3000000#64 0#64 = some 0x8000000000000000#64 ∧
  ask .f2xF32 0x53000000#64 0#64 = some (Config.f2xInvalid .f32 0x53000000#64) ∧
  ask .f2xF32 0x3FC00000#64 0#64 = some 0x0000000001800000#64

/-- 41_float_conversion.md R70: F2X.F64, as R69 for the binary64 pattern `a`; the rule's corner cases and example. -/
def Obligations.Binary64ConvertsByTruncation : Prop :=
  decode 0x23#8 = .op .f2xF64 ∧
  (∀ (op : OpCode) (a b : Word) (rest : List Request) (r0 : Option Word),
    let x := floatFields .f64 a
    let t : ℤ := truncRat (fvalRat .f64 a * 2 ^ 24)
    ∃ r : Word, exec .f2xF64 ⟨⟨op, a, b⟩ :: rest, r0⟩ = .next ⟨rest, some r⟩ ∧
      (x.e = 2047 → r = Config.f2xInvalid .f64 a) ∧
      (x.e < 2047 → r = if -2 ^ 63 ≤ t ∧ t ≤ 2 ^ 63 - 1 then BitVec.ofInt 64 t else Config.f2xInvalid .f64 a) ∧
      (x.e = 0 → r = 0#64)) ∧
  ask .f2xF64 0x0000000000000000#64 0#64 = some 0#64 ∧
  ask .f2xF64 0x8000000000000000#64 0#64 = some 0#64 ∧
  ask .f2xF64 0x3FB999999999999A#64 0#64 = some 0x0000000000199999#64 ∧
  ask .f2xF64 0xBFB999999999999A#64 0#64 = some 0xFFFFFFFFFFE66667#64 ∧
  ask .f2xF64 0x425FFFFFFFFFFFFF#64 0#64 = some 0x7FFFFFFFFFFFFC00#64 ∧
  ask .f2xF64 0xC260000000000000#64 0#64 = some 0x8000000000000000#64 ∧
  ask .f2xF64 0xC260000000000001#64 0#64 = some (Config.f2xInvalid .f64 0xC260000000000001#64) ∧
  ask .f2xF64 0x4260000000000000#64 0#64 = some (Config.f2xInvalid .f64 0x4260000000000000#64) ∧
  ask .f2xF64 0x400921FB54442D18#64 0#64 = some 0x0000000003243F6A#64

/-- The domain of F2X: the patterns 41_float_conversion.md lists are exactly the finite ones whose scaled truncation fits the
container, that is whose value lies strictly between -2^39 - 2^-24 and 2^39 (section 2; decision D20). -/
def Obligations.FloatDomainIsTheListedPatterns : Prop :=
  ∀ (f : FloatFormat) (a : Word),
    let v : Word := floatOperand f a
    let t : ℤ := truncRat (fvalRat f v * 2 ^ 24)
    (inDomainPattern f v = true ↔
      isFinite f (floatFields f v) = true ∧ -2 ^ 63 ≤ t ∧ t ≤ 2 ^ 63 - 1) ∧
    (isFinite f (floatFields f v) = true →
      ((-2 ^ 63 ≤ t ∧ t ≤ 2 ^ 63 - 1) ↔
        (-(2 : ℚ) ^ 39 - (2 : ℚ) ^ (-24 : ℤ) < fvalRat f v ∧ fvalRat f v < (2 : ℚ) ^ 39)))

/-- On every finite pattern the fast path and the bit-level extraction give the word of the generic path
(41_float_conversion.md section 2, derivations of the spec; decision D19). -/
def Obligations.FloatToFixedPathsAgree : Prop :=
  ∀ (f : FloatFormat) (a : Word), isFinite f (floatFields f (floatOperand f a)) = true →
    f2xFast f (floatOperand f a) = f2xGeneric f (floatOperand f a) ∧
    f2xExtract f (floatOperand f a) = f2xGeneric f (floatOperand f a)

/-- 41_float_conversion.md R76: X2F.F32 answers the once-rounded binary32 pattern of `rval(a)` in direction `X2F_ROUND`, zeros
above, under either setting of `FAST_FLOAT_CONV`; inexact whenever `sval(a)` needs more than 24 significant bits; the rule's
corner cases, those at `tiesToEven` stated of the conversion in that direction, and its example. -/
def Obligations.FixedConvertsToBinary32 : Prop :=
  decode 0x32#8 = .op .x2fF32 ∧
  (∀ (op : OpCode) (a b : Word) (rest : List Request) (r0 : Option Word),
    ∃ r : Word, exec .x2fF32 ⟨⟨op, a, b⟩ :: rest, r0⟩ = .next ⟨rest, some r⟩ ∧
      r = froundRat .f32 Config.x2fRound (rval a) ∧ r.toNat < 2 ^ 32 ∧
      ((∀ m k : Nat, m < 2 ^ 24 → a.toInt.natAbs ≠ m * 2 ^ k) → fvalRat .f32 r ≠ rval a)) ∧
  ask .x2fF32 0#64 0#64 = some 0#64 ∧
  ask .x2fF32 1#64 0#64 = some 0x33800000#64 ∧
  (∀ fast : Bool,
    fixedToFloat fast .tiesToEven .f32 0x0000000001000001#64 = 0x3F800000#64 ∧
    fixedToFloat fast .tiesToEven .f32 0x0000000001000003#64 = 0x3F800002#64 ∧
    fixedToFloat fast .tiesToEven .f32 0x0000000003000002#64 = 0x40400000#64 ∧
    fixedToFloat fast .tiesToEven .f32 Config.posSentinel = 0x53000000#64 ∧
    fixedToFloat fast .tiesToEven .f32 Config.negSentinel = 0xD3000000#64 ∧
    fixedToFloat fast .tiesToEven .f32 0x8000000000000000#64 = 0xD3000000#64) ∧
  ask .x2fF32 0x0000000001800000#64 0#64 = some 0x000000003FC00000#64

/-- 41_float_conversion.md R77: X2F.F64 answers the once-rounded binary64 pattern of `rval(a)`; exact below 2^53; the rule's
corner cases, those at `tiesToEven` stated of the conversion in that direction, and its example. -/
def Obligations.FixedConvertsToBinary64 : Prop :=
  decode 0x33#8 = .op .x2fF64 ∧
  (∀ (op : OpCode) (a b : Word) (rest : List Request) (r0 : Option Word),
    ∃ r : Word, exec .x2fF64 ⟨⟨op, a, b⟩ :: rest, r0⟩ = .next ⟨rest, some r⟩ ∧
      r = froundRat .f64 Config.x2fRound (rval a) ∧
      (a.toInt.natAbs < 2 ^ 53 → fvalRat .f64 r = rval a)) ∧
  ask .x2fF64 0#64 0#64 = some 0#64 ∧
  (∀ fast : Bool,
    fixedToFloat fast .tiesToEven .f64 0x0020000000000001#64 = 0x41C0000000000000#64 ∧
    fixedToFloat fast .tiesToEven .f64 0x0020000000000003#64 = 0x41C0000000000002#64 ∧
    fixedToFloat fast .tiesToEven .f64 Config.posSentinel = 0x4260000000000000#64 ∧
    fixedToFloat fast .tiesToEven .f64 Config.negSentinel = 0xC260000000000000#64) ∧
  ask .x2fF64 0x0000000000555540#64 0#64 = some 0x3FD5555000000000#64

/-- The generic path of X2F is one rounding of the exact rational `rval(a)`, in every direction (41_float_conversion.md
section 3; decision D22): the integer datapath of the model refines the rational definition. -/
def Obligations.FixedToFloatRoundsTheExactValueOnce : Prop :=
  ∀ (f : FloatFormat) (mode : RoundingDirection) (a : Word),
    x2fGeneric mode f a = froundRat f mode (rval a)

/-- For every word and every direction the fast path of X2F gives the pattern of the generic path (41_float_conversion.md
section 3, a derivation of the spec; decision D19). -/
def Obligations.FixedToFloatPathsAgree : Prop :=
  ∀ (f : FloatFormat) (mode : RoundingDirection) (a : Word), x2fFast mode f a = x2fGeneric mode f a

/-- No X2F result is a NaN, an infinity, a subnormal or a negative zero; its sign is the operand's; and it is exact when the
magnitude spans at most P + 1 bits, in every direction and on both paths (41_float_conversion.md section 3; decision D22). -/
def Obligations.FixedToFloatResultsAreZeroOrNormal : Prop :=
  ∀ (fast : Bool) (f : FloatFormat) (mode : RoundingDirection) (a : Word),
    let r := fixedToFloat fast mode f a
    (a = 0#64 → r = 0#64) ∧
    (a ≠ 0#64 → floatClass f (floatFields f r) = .normal ∧ (floatFields f r).sign = decide (a.toInt < 0)) ∧
    ((∃ m k : Nat, m < 2 ^ (fracBits f + 1) ∧ a.toInt.natAbs = m * 2 ^ k) → fvalRat f r = rval a)

/-- On its domain F2X falls short of the operand by less than 2^-24 in magnitude and never has the larger magnitude
(41_float_conversion.md section on round trips, a derivation of the spec). -/
def Obligations.FloatToFixedErrorIsBelowOneUnit : Prop :=
  ∀ (fast : Bool) (f : FloatFormat) (a : Word), inDomainPattern f (floatOperand f a) = true →
    let v := floatOperand f a
    let r := floatToFixed fast f v
    0 ≤ |fvalRat f v| - |rval r| ∧ |fvalRat f v| - |rval r| < (2 : ℚ) ^ (-24 : ℤ)

/-- Float round trips (41_float_conversion.md section on round trips, a derivation of the spec): a pattern whose scaled value
is an integer comes back bit for bit, but `-0.0` comes back as `+0.0`; a word below 2^53 in magnitude comes back through
binary64; the positive sentinel does not, at `tiesToEven`. On every path and in every direction. -/
def Obligations.FloatRoundTrips : Prop :=
  (∀ (fast fast' : Bool) (mode : RoundingDirection) (f : FloatFormat) (a : Word),
    let v := floatOperand f a
    inDomainPattern f v = true → (∃ n : ℤ, fvalRat f v * 2 ^ 24 = n) →
      fixedToFloat fast' mode f (floatToFixed fast f v) =
        if floatClass f (floatFields f v) = .zero then 0#64 else v) ∧
  (∀ (fast fast' : Bool) (mode : RoundingDirection) (a : Word), a.toInt.natAbs < 2 ^ 53 →
    floatToFixed fast .f64 (fixedToFloat fast' mode .f64 a) = a) ∧
  (∀ fast : Bool, fixedToFloat fast .tiesToEven .f64 Config.posSentinel = 0x4260000000000000#64 ∧
    inDomainPattern .f64 0x4260000000000000#64 = false)

/-! ### Addition and subtraction -/

/-- 42_add_sub.md R81: ADD answers the sum modulo 2^64; exact when the true sum fits, off by 2^64 when it does not; the rule's
corner cases and example. -/
def Obligations.AddWrapsModulo : Prop :=
  decode 0x40#8 = .op .add ∧
  (∀ (op : OpCode) (a b : Word) (rest : List Request) (r0 : Option Word),
    let r : Word := BitVec.ofInt 64 (a.toInt + b.toInt)
    exec .add ⟨⟨op, a, b⟩ :: rest, r0⟩ = .next ⟨rest, some r⟩ ∧
    r = BitVec.ofInt 64 ((a.toNat : Int) + b.toNat) ∧
    (-2 ^ 63 ≤ a.toInt + b.toInt ∧ a.toInt + b.toInt ≤ 2 ^ 63 - 1 →
      r.toInt = a.toInt + b.toInt ∧ rval r = rval a + rval b) ∧
    (2 ^ 63 - 1 < a.toInt + b.toInt → r.toInt = a.toInt + b.toInt - 2 ^ 64) ∧
    (a.toInt + b.toInt < -2 ^ 63 → r.toInt = a.toInt + b.toInt + 2 ^ 64) ∧
    exec .add ⟨⟨op, a, a⟩ :: rest, r0⟩ = .next ⟨rest, some (BitVec.ofInt 64 (2 * a.toInt))⟩) ∧
  ask .add 0x7FFFFFFFFFFFFFFF#64 0x1#64 = some 0x8000000000000000#64 ∧
  ask .add 0x8000000000000000#64 0xFFFFFFFFFFFFFFFF#64 = some 0x7FFFFFFFFFFFFFFF#64 ∧
  ask .add 0x0000000003000000#64 0x0000000004000000#64 = some 0x0000000007000000#64

/-- 42_add_sub.md R82: SUB answers the difference modulo 2^64; exact when it fits, off by 2^64 when it does not; the rule's
corner cases and example. -/
def Obligations.SubWrapsModulo : Prop :=
  decode 0x41#8 = .op .sub ∧
  (∀ (op : OpCode) (a b : Word) (rest : List Request) (r0 : Option Word),
    let r : Word := BitVec.ofInt 64 (a.toInt - b.toInt)
    exec .sub ⟨⟨op, a, b⟩ :: rest, r0⟩ = .next ⟨rest, some r⟩ ∧
    (-2 ^ 63 ≤ a.toInt - b.toInt ∧ a.toInt - b.toInt ≤ 2 ^ 63 - 1 →
      r.toInt = a.toInt - b.toInt ∧ rval r = rval a - rval b) ∧
    (2 ^ 63 - 1 < a.toInt - b.toInt → r.toInt = a.toInt - b.toInt - 2 ^ 64) ∧
    (a.toInt - b.toInt < -2 ^ 63 → r.toInt = a.toInt - b.toInt + 2 ^ 64) ∧
    exec .sub ⟨⟨op, a, a⟩ :: rest, r0⟩ = .next ⟨rest, some 0#64⟩ ∧
    exec .sub ⟨⟨op, b, a⟩ :: rest, r0⟩ = .next ⟨rest, some (-r)⟩) ∧
  (∃ a b : Word, ask .sub a b ≠ ask .sub b a) ∧
  ask .sub 0x8000000000000000#64 0x1#64 = some 0x7FFFFFFFFFFFFFFF#64 ∧
  ask .sub 0#64 0x8000000000000000#64 = some 0x8000000000000000#64 ∧
  ask .sub 0x0000000003000000#64 0x0000000004000000#64 = some 0xFFFFFFFFFF000000#64

/-- The laws of ADD, SUB and the unary minus, for all words (42_add_sub.md, the testable laws, a derivation of the spec;
46_mixed_type_and_pseudo.md, NEG, decision D24): identity, inverse, commutativity, associativity, SUB as ADD of NEG, and the
corner cases of NEG. -/
def Obligations.AdditionLaws : Prop :=
  (∀ a : Word, ask .add a 0#64 = some a ∧ ask .add 0#64 a = some a ∧ ask .sub a 0#64 = some a) ∧
  (∀ a : Word, ∃ n : Word, negPseudo a = some n ∧ n = word (-a.toInt) ∧ ask .add a n = some 0#64) ∧
  (∀ a b : Word, ask .add a b = ask .add b a) ∧
  (∀ a b c : Word, ∃ ab bc : Word, ask .add a b = some ab ∧ ask .add b c = some bc ∧
    ask .add ab c = ask .add a bc) ∧
  (∀ a b : Word, ∃ n : Word, negPseudo b = some n ∧ ask .sub a b = ask .add a n) ∧
  negPseudo 0#64 = some 0#64 ∧
  negPseudo 0x8000000000000000#64 = some 0x8000000000000000#64 ∧
  negPseudo Config.posSentinel = some Config.negSentinel ∧
  negPseudo Config.negSentinel = some Config.posSentinel

/-! ### Multiplication -/

/-- MUL on the numbers the operands denote (43_multiply.md, the operation; decisions D13, D14, D15): each magnitude loses its
low 8 bits, the product keeps its low 64 bits and then loses 8 more, and the combined sign is applied; the rule's example. -/
def Obligations.MulIsTheReducedProduct : Prop :=
  decode 0x42#8 = .op .mul ∧
  (∀ (op : OpCode) (a b : Word) (rest : List Request) (r0 : Option Word),
    let q : Int := ((a.toInt.natAbs / 256 * (b.toInt.natAbs / 256)) % 2 ^ 64 / 256 : Nat)
    exec .mul ⟨⟨op, a, b⟩ :: rest, r0⟩ =
      .next ⟨rest, some (BitVec.ofInt 64 (if (a.toInt < 0 ↔ b.toInt < 0) then q else -q))⟩) ∧
  ask .mul 0x0000000001800000#64 0x0000000002000000#64 = some 0x0000000003000000#64

/-- Sign, zero and range of a product, for all operands, wrapped or not (43_multiply.md, derivations of the spec): it is zero
exactly when the kept product is below 256, otherwise its sign is the parity flag's, and it lies strictly between -2^56 and
2^56. -/
def Obligations.MulSignZeroAndRange : Prop :=
  ∀ a b : Word, ∃ r : Word, ask .mul a b = some r ∧
    (r = 0#64 ↔ (a.toInt.natAbs / 256 * (b.toInt.natAbs / 256)) % 2 ^ 64 < 256) ∧
    (r ≠ 0#64 → (r.toInt < 0 ↔ ¬ (a.toInt < 0 ↔ b.toInt < 0))) ∧
    (-2 ^ 56 < r.toInt ∧ r.toInt < 2 ^ 56)

/-- The error of a product whose reduced product fits 64 bits, which `|rval(a)| * |rval(b)| < 2^32` suffices for
(43_multiply.md, derivations of the spec): the magnitude is the floor of the product of the reduced magnitudes, never above
the true product, and short of it by less than the stated bound. -/
def Obligations.MulErrorBound : Prop :=
  ∀ a b : Word, ∃ r : Word, ask .mul a b = some r ∧
    (let ma := a.toInt.natAbs
     let mb := b.toInt.natAbs
     let ea := ma % 256
     let eb := mb % 256
     let x : ℚ := (ma : ℚ) * mb / 2 ^ 24
     (ma / 256 * (mb / 256) < 2 ^ 64 →
       r.toInt.natAbs = (ma - ea) * (mb - eb) / 2 ^ 24 ∧
       0 ≤ x - r.toInt.natAbs ∧
       x - r.toInt.natAbs < ((ma : ℚ) * eb + mb * ea - ea * eb) / 2 ^ 24 + 1 ∧
       ((ma : ℚ) * eb + mb * ea - ea * eb) / 2 ^ 24 + 1 ≤ 255 * ((ma : ℚ) + mb) / 2 ^ 24 + 1) ∧
     (|rval a| * |rval b| < 2 ^ 32 → ma / 256 * (mb / 256) < 2 ^ 64))

/-- Exact products (43_multiply.md, a derivation of the spec): no low 8 bits in either magnitude and a true product that is a
whole number of units; integers whose product is below 2^32 in magnitude; and multiplying by 1.0, which clears the low 8 bits
of a magnitude below 2^56. -/
def Obligations.MulExactCases : Prop :=
  (∀ a b : Word, a.toInt.natAbs % 256 = 0 → b.toInt.natAbs % 256 = 0 →
    a.toInt.natAbs * b.toInt.natAbs % 2 ^ 24 = 0 →
    a.toInt.natAbs / 256 * (b.toInt.natAbs / 256) < 2 ^ 64 →
    ∃ r : Word, ask .mul a b = some r ∧ rval r = rval a * rval b) ∧
  (∀ (a b : Word) (i j : Int), a.toInt = i * 2 ^ 24 → b.toInt = j * 2 ^ 24 → |i * j| < 2 ^ 32 →
    ask .mul a b = ask .i2xS64 (word (i * j)) 0#64) ∧
  (∀ a : Word, a.toInt.natAbs < 2 ^ 56 →
    ∃ r : Word, ask .mul a 0x0000000001000000#64 = some r ∧
      r.toInt = a.toInt - a.toInt.tmod 256)

/-- The algebra of MUL (43_multiply.md, a derivation of the spec): commutative, zero, odd in each operand but at the most
negative word; and not associative, and not distributive over ADD. -/
def Obligations.MulAlgebra : Prop :=
  (∀ a b : Word, ask .mul a b = ask .mul b a) ∧
  (∀ a : Word, ask .mul a 0#64 = some 0#64 ∧ ask .mul 0#64 a = some 0#64) ∧
  (∀ a b : Word, a ≠ 0x8000000000000000#64 →
    ∃ r : Word, ask .mul a b = some r ∧ ask .mul (-a) b = some (-r)) ∧
  (∃ a b c : Word, (ask .mul a b).bind (fun x => ask .mul x c) ≠
    (ask .mul b c).bind (fun x => ask .mul a x)) ∧
  (∃ a b c ab ac : Word, ask .mul a b = some ab ∧ ask .mul a c = some ac ∧
    (ask .add b c).bind (fun x => ask .mul a x) ≠ ask .add ab ac)

/-! ### Division -/

/-- DIV on the numbers the operands denote (44_divide.md, the operation; decisions D13 to D17): a zero reduced divisor answers
the sentinel of the combined sign; otherwise the dividend magnitude times 2^10, kept to 64 bits, is divided by the divisor
magnitude without its low 8 bits, the quotient times 64 is kept to 64 bits, and the combined sign is applied; the example. -/
def Obligations.DivIsTheReducedQuotient : Prop :=
  decode 0x43#8 = .op .div ∧
  (∀ (op : OpCode) (a b : Word) (rest : List Request) (r0 : Option Word),
    let d : Nat := b.toInt.natAbs / 256
    let m : Int := (a.toInt.natAbs * 1024 % 2 ^ 64 / d * 64 % 2 ^ 64 : Nat)
    exec .div ⟨⟨op, a, b⟩ :: rest, r0⟩ =
      .next ⟨rest, some (
        if d = 0 then (if (a.toInt < 0 ↔ b.toInt < 0) then 0x7FFFFFFFFFFFFFFF#64 else 0x8000000000000001#64)
        else BitVec.ofInt 64 (if (a.toInt < 0 ↔ b.toInt < 0) then m else -m))⟩) ∧
  ask .div 0x0000000001000000#64 0x0000000003000000#64 = some 0x0000000000555540#64

/-- Division by a small divisor (44_divide.md R96): the zero test is on the reduced divisor, so it fires for every divisor of
magnitude at most 255 units; it takes precedence, the dividend mattering only by its sign bit; the result is a saturated
sentinel, and the division never faults. That no larger divisor's result is a sentinel is a derivation of the spec (R102: every
such result is a multiple of 64, under its decisions D13 to D15) and rests on the sentinel words of its decision D16 (log 12):
with the minimum word as the negative sentinel it would be false. -/
def Obligations.DivByASmallDivisorSaturates : Prop :=
  (∀ (op : OpCode) (a b : Word) (rest : List Request) (r0 : Option Word),
    ∃ r : Word, exec .div ⟨⟨op, a, b⟩ :: rest, r0⟩ = .next ⟨rest, some r⟩ ∧
      (|b.toInt| ≤ 255 ↔ (r = Config.posSentinel ∨ r = Config.negSentinel))) ∧
  (∀ (b : Word), |rval b| < (2 : ℚ) ^ (-16 : ℤ) ↔ |b.toInt| ≤ 255) ∧
  (∀ (op : OpCode) (a a' b : Word) (rest : List Request) (r0 : Option Word),
    |b.toInt| ≤ 255 → a.msb = a'.msb →
      exec .div ⟨⟨op, a, b⟩ :: rest, r0⟩ = exec .div ⟨⟨op, a', b⟩ :: rest, r0⟩)

/-- Sentinels and multiples of 64 (44_divide.md, sign and values of the sentinels, decisions D16, D17; the low six bits and the
zero dividend, derivations of the spec): the sign of the sentinel, the document's four examples, zero divided by an accepted
divisor, and that every other quotient has its low six bits zero. -/
def Obligations.DivSentinelSignsAndLowBits : Prop :=
  (∀ a b : Word, |b.toInt| ≤ 255 →
    ask .div a b = some (if a.msb = b.msb then Config.posSentinel else Config.negSentinel)) ∧
  (∀ a b : Word, 256 ≤ |b.toInt| → ∃ r : Word, ask .div a b = some r ∧ r.toNat % 64 = 0) ∧
  (∀ b : Word, 256 ≤ |b.toInt| → ask .div 0#64 b = some 0#64) ∧
  Config.posSentinel.toNat % 64 ≠ 0 ∧ Config.negSentinel.toNat % 64 ≠ 0 ∧
  Config.negSentinel = -Config.posSentinel ∧
  ask .div 0x000000000A000000#64 0#64 = some 0x7FFFFFFFFFFFFFFF#64 ∧
  ask .div 0xFFFFFFFFF6000000#64 0#64 = some 0x8000000000000001#64 ∧
  ask .div 0#64 0#64 = some 0x7FFFFFFFFFFFFFFF#64 ∧
  ask .div 0#64 0xFFFFFFFFFFFFFFFB#64 = some 0x8000000000000001#64

/-- The error of a quotient when neither shift overflows (44_divide.md, overflow and error, derivations of the spec): with a
dividend magnitude below 2^54 and a quotient below 2^57, the magnitude is 64 times the truncated quotient, less than 64 units
below the true quotient and at most the stated relative amount above it, with the combined sign. -/
def Obligations.DivErrorBound : Prop :=
  ∀ a b : Word,
    let ma := a.toInt.natAbs
    let mb := b.toInt.natAbs
    let eb := mb % 256
    let d := mb / 256
    let y : ℚ := (ma : ℚ) * 2 ^ 24 / mb
    d ≠ 0 → ma < 2 ^ 54 → ma * 1024 / d < 2 ^ 57 →
      ∃ r : Word, ask .div a b = some r ∧
        r.toInt.natAbs = 64 * (ma * 1024 / d) ∧
        (r ≠ 0#64 → (r.toInt < 0 ↔ ¬ (a.toInt < 0 ↔ b.toInt < 0))) ∧
        y - 64 < (r.toInt.natAbs : ℚ) ∧
        (r.toInt.natAbs : ℚ) ≤ (ma : ℚ) * 2 ^ 16 / d ∧
        (ma : ℚ) * 2 ^ 16 / d = y * (1 + (eb : ℚ) / (256 * d))

/-- Exact quotients and wrapped ones (44_divide.md, exact cases and overflow, derivations of the spec): a divisor without low
8 bits truncates the true quotient to a multiple of 2^-18; dividing by 1.0 clears the low 6 bits of a magnitude below 2^54; a
larger dividend loses its top bits, as the rule's examples show. -/
def Obligations.DivExactCasesAndOverflow : Prop :=
  (∀ a b : Word, b.toInt ≠ 0 → b.toInt.natAbs % 256 = 0 → a.toInt.natAbs < 2 ^ 54 →
    a.toInt.natAbs * 1024 / (b.toInt.natAbs / 256) < 2 ^ 57 →
    ∃ r : Word, ask .div a b = some r ∧
      r.toInt.natAbs = 64 * (a.toInt.natAbs * 2 ^ 24 / b.toInt.natAbs / 64)) ∧
  (∀ a : Word, a.toInt.natAbs < 2 ^ 54 →
    ∃ r : Word, ask .div a 0x0000000001000000#64 = some r ∧ r.toInt = a.toInt - a.toInt.tmod 64) ∧
  ask .div 0x0000000007000000#64 0x0000000002000000#64 = some 0x0000000003800000#64 ∧
  ask .div 0x0040000000000000#64 0x0000000001000000#64 = some 0#64 ∧
  ask .div 0x0040000001000000#64 0x0000000001000000#64 = some 0x0000000001000000#64 ∧
  ask .div 0x7FFFFFFFFFFFFFFF#64 0x0000000001000000#64 = some 0x003FFFFFFFFFFFC0#64 ∧
  ask .div 0x0000800000000000#64 0x0000000000000100#64 = some 0x8000000000000000#64

/-- Negating the dividend negates the quotient, but for 0 and the most negative word; for 0 it fails on the zero-divisor path
(44_divide.md, algebra, a derivation of the spec). -/
def Obligations.DivIsOddInTheDividend : Prop :=
  (∀ a b : Word, a ≠ 0#64 → a ≠ 0x8000000000000000#64 →
    ∃ r : Word, ask .div a b = some r ∧ ask .div (-a) b = some (-r)) ∧
  (∃ b r : Word, ask .div 0#64 b = some r ∧ ask .div (-0#64) b ≠ some (-r))

/-! ### Comparisons -/

/-- 45_compare.md R107 and R108: CMPEQ and CMPNE compare all 64 bits and answer the word 1 or 0; CMPNE is 1 - CMPEQ; the rules'
corner cases and examples. -/
def Obligations.EqualityComparesAllBits : Prop :=
  decode 0x50#8 = .op .cmpeq ∧ decode 0x51#8 = .op .cmpne ∧
  (∀ (op : OpCode) (a b : Word) (rest : List Request) (r0 : Option Word),
    exec .cmpeq ⟨⟨op, a, b⟩ :: rest, r0⟩ =
      .next ⟨rest, some (if (∀ k : Fin 64, a.getLsbD k = b.getLsbD k) then 1#64 else 0#64)⟩ ∧
    exec .cmpne ⟨⟨op, a, b⟩ :: rest, r0⟩ =
      .next ⟨rest, some (if (∃ k : Fin 64, a.getLsbD k ≠ b.getLsbD k) then 1#64 else 0#64)⟩) ∧
  (∀ a b : Word, ∃ e n : Word, ask .cmpeq a b = some e ∧ ask .cmpne a b = some n ∧ n = 1#64 - e) ∧
  (∀ a : Word, ask .cmpeq a a = some 1#64 ∧ ask .cmpeq a (a ^^^ 1#64) = some 0#64) ∧
  ask .cmpeq 0x0000000007000000#64 0x0000000007000000#64 = some 1#64 ∧
  ask .cmpne 0x0000000007000000#64 0x0000000007000001#64 = some 1#64

/-- 45_compare.md R109 to R112: CMPLT, CMPLE, CMPGT and CMPGE compare the signed values exactly and answer the word 1 or 0; the
rules' identities, corner cases and examples. -/
def Obligations.OrderComparesSignedValues : Prop :=
  decode 0x52#8 = .op .cmplt ∧ decode 0x53#8 = .op .cmple ∧
  decode 0x54#8 = .op .cmpgt ∧ decode 0x55#8 = .op .cmpge ∧
  (∀ (op : OpCode) (a b : Word) (rest : List Request) (r0 : Option Word),
    exec .cmplt ⟨⟨op, a, b⟩ :: rest, r0⟩ = .next ⟨rest, some (if a.toInt < b.toInt then 1#64 else 0#64)⟩ ∧
    exec .cmple ⟨⟨op, a, b⟩ :: rest, r0⟩ = .next ⟨rest, some (if a.toInt ≤ b.toInt then 1#64 else 0#64)⟩ ∧
    exec .cmpgt ⟨⟨op, a, b⟩ :: rest, r0⟩ = .next ⟨rest, some (if a.toInt > b.toInt then 1#64 else 0#64)⟩ ∧
    exec .cmpge ⟨⟨op, a, b⟩ :: rest, r0⟩ = .next ⟨rest, some (if a.toInt ≥ b.toInt then 1#64 else 0#64)⟩) ∧
  (∀ a b : Word, ∃ lt le gt ge : Word, ask .cmplt a b = some lt ∧ ask .cmple a b = some le ∧
    ask .cmpgt a b = some gt ∧ ask .cmpge a b = some ge ∧
    le = 1#64 - gt ∧ ge = 1#64 - lt ∧ ask .cmplt b a = some gt ∧ ask .cmple b a = some ge) ∧
  (∀ a : Word, ask .cmplt a a = some 0#64 ∧ ask .cmple a a = some 1#64 ∧
    ask .cmpgt a a = some 0#64 ∧ ask .cmpge a a = some 1#64 ∧
    (a ≠ 0x8000000000000000#64 → ask .cmplt 0x8000000000000000#64 a = some 1#64)) ∧
  ask .cmplt 0xFFFFFFFFFF000000#64 0#64 = some 1#64 ∧
  ask .cmplt 0xFFFFFFFFF6000000#64 0x000000000A000000#64 = some 1#64 ∧
  ask .cmple 0x7FFFFFFFFFFFFFFF#64 0x7FFFFFFFFFFFFFFF#64 = some 1#64 ∧
  ask .cmpgt 0x7FFFFFFFFFFFFFFF#64 0x7FFFFFFFFF000000#64 = some 1#64 ∧
  ask .cmpge 0x8000000000000001#64 0x8000000000000000#64 = some 1#64

/-- Exactly one of less, equal and greater holds for any two words, and the order of words is the order of the real values they
represent, no two words being the same value (45_compare.md, trichotomy and order, derivations of the spec). -/
def Obligations.OrderIsTheOrderOfRealValues : Prop :=
  (∀ a b : Word, ∃ lt eq gt : Word, ask .cmplt a b = some lt ∧ ask .cmpeq a b = some eq ∧
    ask .cmpgt a b = some gt ∧ lt + eq + gt = 1#64 ∧ lt.toNat + eq.toNat + gt.toNat = 1) ∧
  (∀ a b : Word, ask .cmplt a b = some 1#64 ↔ rval a < rval b) ∧
  (∀ a b : Word, ask .cmpeq a b = some 1#64 ↔ rval a = rval b) ∧
  (∀ a b c : Word, ask .cmple a b = some 1#64 → ask .cmple b c = some 1#64 → ask .cmple a c = some 1#64)

/-! ### Pseudo-operations -/

/-- A mixed-type operation is the conversion of the native operand followed by the same-type operation, on either side, and
always answers (46_mixed_type_and_pseudo.md; decision D25): an integer operand stands for its value times 2^24 modulo 2^64, a
float operand inside the domain for its truncated value times 2^24. There is no direct multiplier. -/
def Obligations.MixedOperandsConvertFirst : Prop :=
  (∀ (o : BinaryOp) (a n : Word),
    mixedRight o .s8 a n = ask o.instr a (word ((n.setWidth 8).toInt * 2 ^ 24)) ∧
    mixedRight o .s16 a n = ask o.instr a (word ((n.setWidth 16).toInt * 2 ^ 24)) ∧
    mixedRight o .s32 a n = ask o.instr a (word ((n.setWidth 32).toInt * 2 ^ 24)) ∧
    mixedRight o .s64 a n = ask o.instr a (word (n.toInt * 2 ^ 24)) ∧
    mixedRight o .u8 a n = ask o.instr a (word ((n.setWidth 8).toNat * 2 ^ 24)) ∧
    mixedRight o .u16 a n = ask o.instr a (word ((n.setWidth 16).toNat * 2 ^ 24)) ∧
    mixedRight o .u32 a n = ask o.instr a (word ((n.setWidth 32).toNat * 2 ^ 24)) ∧
    mixedRight o .u64 a n = ask o.instr a (word (n.toNat * 2 ^ 24)) ∧
    (inDomainPattern .f32 (floatOperand .f32 n) = true →
      mixedRight o .f32 a n = ask o.instr a (qLiteral (fvalRat .f32 (floatOperand .f32 n)))) ∧
    (inDomainPattern .f64 n = true →
      mixedRight o .f64 a n = ask o.instr a (qLiteral (fvalRat .f64 n)))) ∧
  (∀ (o : BinaryOp) (t : NativeType) (a n : Word), ∃ x r l : Word,
    ask t.conversion n 0#64 = some x ∧
    mixedRight o t a n = ask o.instr a x ∧ ask o.instr a x = some r ∧
    mixedLeft o t n a = ask o.instr x a ∧ ask o.instr x a = some l) ∧
  mixedRight .mul .s16 0x00000000000001FF#64 3#64 = some 0x0000000000000300#64 ∧
  mixedRight .mul .s16 0x00000000000001FF#64 3#64 ≠ some (word ((0x1FF#64 : Word).toInt * 3))

/-- A compound assignment is the same transaction with the host storing the answer under the name the first operand was read
from: a line may name one value as both operands and as its result, with no aliasing effect, and no other name changes
(46_mixed_type_and_pseudo.md, compound assignment; the names are the model's reading of the transaction lines, log 18). -/
def Obligations.CompoundAssignmentStoresTheAnswer : Prop :=
  ∀ (o : AssignOp) (env : Names) (x y : Nat) (v w : Word),
    (Source.name x).value env = some v → (Source.name y).value env = some w →
      ∃ (r : Word) (env' : Names), assignPseudo o v w = some r ∧
        Line.run env ⟨x, o.binary.instr, .name x, some (.name y)⟩ = some env' ∧
        (Source.name x).value env' = some r ∧
        ∀ z : Nat, z ≠ x → (Source.name z).value env' = (Source.name z).value env
end

