-- ==== Sys2Proof/Laws/State.lean ====
section
/-! SUPPORT. One lemma per field per update of the state. -/

namespace Sys2Proof.Machine

@[simp] theorem reset_requests : State.reset.requests = [] := rfl
@[simp] theorem reset_r : State.reset.r = none := rfl

@[simp] theorem present_requests (s : State) (q : Request) :
    (s.present q).requests = s.requests ++ [q] := rfl
@[simp] theorem present_r (s : State) (q : Request) : (s.present q).r = s.r := rfl

@[simp] theorem answer_requests (s : State) (w : Word) :
    (s.answer w).requests = s.requests.tail := rfl
@[simp] theorem answer_r (s : State) (w : Word) : (s.answer w).r = some w := rfl

@[simp] theorem withOpCode_r (s : State) (op : OpCode) : (s.withOpCode op).r = s.r := by
  unfold State.withOpCode; split <;> rfl

@[simp] theorem withFetchWord_r (s : State) (nbits w : Nat) :
    (s.withFetchWord nbits w).r = s.r := withOpCode_r s _

/-- After `withOpCode` a transaction is presented, and its op code is the one placed. -/
theorem withOpCode_head (s : State) (op : OpCode) :
    ∃ a b rest, (s.withOpCode op).requests = ⟨op, a, b⟩ :: rest := by
  unfold State.withOpCode
  split
  · exact ⟨_, _, _, rfl⟩
  · exact ⟨_, _, _, rfl⟩

end Sys2Proof.Machine
end

