-- ==== Sys2Proof/Laws/Ops.lean ====
section
/-! SUPPORT. What the shared operations do, said once: the transaction, and the primitives of 00_scope.md section 6.2 as
operations on the numbers the words denote. -/

namespace Sys2Proof.Machine

/-- Everything a transaction can do: with one presented it answers and drops it, and there is no other next state. -/
theorem transact_next_iff {f : Word → Word → Word} {s t : State} :
    transact f s = .next t ↔
      ∃ q rest, s.requests = q :: rest ∧ t = { requests := rest, r := some (f q.a q.b) } := by
  unfold transact
  cases h : s.requests with
  | nil => simp
  | cons q rest => simp [State.answer, h, eq_comm]

@[simp] theorem transact_cons (f : Word → Word → Word) (q : Request) (rest : List Request)
    (r0 : Option Word) :
    transact f ⟨q :: rest, r0⟩ = .next ⟨rest, some (f q.a q.b)⟩ := rfl

@[simp] theorem transact_nil (f : Word → Word → Word) (r0 : Option Word) :
    transact f ⟨[], r0⟩ = .refused .noTransaction := rfl

theorem sgn_eq_decide (w : Word) : sgn w = decide (w.toInt < 0) := by
  simp [sgn, BitVec.msb_eq_toInt]

/-- `uval(mag64(w)) = |sval(w)|`, the most negative word included (D13). -/
theorem mag64_toNat (w : Word) : (mag64 w).toNat = w.toInt.natAbs := by
  have hw := w.isLt
  unfold mag64 sgn neg64
  rw [BitVec.msb_eq_decide]
  rw [BitVec.toInt_eq_toNat_cond]
  split <;> rename_i h <;> simp at h ⊢ <;> split <;> omega

theorem neg64_eq_word (w : Word) : neg64 w = word (-(w.toNat : Int)) := by
  unfold neg64 word
  rw [BitVec.ofInt_neg]
  simp

/-- `apply_sign` multiplies by +1 or -1 modulo 2^64 (40_int_conversion.md R50). -/
theorem applySign_eq_word (p : Bool) (m : Word) :
    applySign p m = word (if p then -(m.toNat : Int) else m.toNat) := by
  cases p
  · simp [applySign]
  · simpa [applySign] using neg64_eq_word m

@[simp] theorem applySign_zero (p : Bool) : applySign p 0#64 = 0#64 := by
  cases p <;> rfl

theorem lsl64_toNat (w : Word) (k : Nat) : (lsl64 w k).toNat = w.toNat * 2 ^ k % 2 ^ 64 := by
  simp [lsl64, Nat.shiftLeft_eq]

theorem lsr64_toNat (w : Word) (k : Nat) : (lsr64 w k).toNat = w.toNat / 2 ^ k := by
  simp [lsr64, Nat.shiftRight_eq_div_pow]

theorem umul64_toNat (x y : Word) : (umul64 x y).toNat = x.toNat * y.toNat % 2 ^ 64 := by
  simp [umul64]

theorem udiv64_toNat (x y : Word) : (udiv64 x y).toNat = x.toNat / y.toNat := by
  simp [udiv64]

theorem reducedMagnitude_toNat (w : Word) :
    (reducedMagnitude w).toNat = w.toInt.natAbs / 2 ^ 8 := by
  rw [reducedMagnitude, lsr64_toNat, mag64_toNat]

/-- The magnitude of a word is at most 2^63. -/
theorem natAbs_toInt_le (w : Word) : w.toInt.natAbs ≤ 2 ^ 63 := by
  have h1 := w.toInt_lt
  have h2 := w.le_toInt
  simp at h1 h2
  omega

theorem sext_toInt (n : Nat) (hn : n ≤ 64) (v : Word) :
    (sext n v).toInt = (v.setWidth n).toInt := by
  simp [sext, BitVec.toInt_signExtend_of_le hn]

theorem zext_toNat (n : Nat) (hn : n ≤ 64) (v : Word) : (zext n v).toNat = v.toNat % 2 ^ n := by
  simp [zext]
  exact lt_of_lt_of_le (Nat.mod_lt _ (by positivity)) (Nat.pow_le_pow_right (by norm_num) hn)

theorem parityFlag_eq (a b : Word) :
    parityFlag a b = (decide (a.toInt < 0) ^^ decide (b.toInt < 0)) := by
  simp [parityFlag, sgn_eq_decide]

theorem truthWord_eq (t : Bool) : truthWord t = if t then 1#64 else 0#64 := by
  cases t <;> rfl

theorem fitsWord_iff (t : Int) : fitsWord t = true ↔ -2 ^ 63 ≤ t ∧ t ≤ 2 ^ 63 - 1 := by
  simp [fitsWord]

end Sys2Proof.Machine
end

