-- ==== Sys2Proof/Laws/Float.lean ====
section
/-! SUPPORT. The small lemmas of the float fields, the pattern packing and the rounded significand. -/

namespace Sys2Proof.Machine

theorem floatFields_e_lt (f : FloatFormat) (v : Word) : (floatFields f v).e < 2 ^ expBits f :=
  Nat.mod_lt _ (by positivity)

theorem floatFields_frac_lt (f : FloatFormat) (v : Word) : (floatFields f v).frac < 2 ^ fracBits f :=
  Nat.mod_lt _ (by positivity)

/-- The fields of a packed pattern are the fields it was packed from. -/
theorem floatFields_packFloat {f : FloatFormat} {x : FloatFields}
    (he : x.e < 2 ^ expBits f) (hf : x.frac < 2 ^ fracBits f) :
    floatFields f (packFloat f x) = x := by
  obtain ⟨s, e, fr⟩ := x
  cases f <;> cases s <;>
    simp [floatFields, packFloat, floatWidth, fracBits, expBits, BitVec.getLsbD, Nat.testBit_eq_decide_div_mod_eq] at he hf ⊢ <;>
    omega

/-- The pattern of a packed float is its fields in their places. -/
theorem packFloat_toNat {f : FloatFormat} {x : FloatFields}
    (he : x.e < 2 ^ expBits f) (hf : x.frac < 2 ^ fracBits f) :
    (packFloat f x).toNat =
      x.sign.toNat * 2 ^ (floatWidth f - 1) + x.e * 2 ^ fracBits f + x.frac := by
  obtain ⟨s, e, fr⟩ := x
  cases f <;> cases s <;> simp [packFloat, floatWidth, fracBits, expBits] at he hf ⊢ <;> omega

theorem word_toInt_of_fits {t : Int} (h : fitsWord t = true) : (word t).toInt = t := by
  obtain ⟨h1, h2⟩ := (fitsWord_iff t).1 h
  rw [word, BitVec.toInt_ofInt, Int.bmod_eq_of_le] <;> norm_num <;> omega

theorem isFinite_iff (f : FloatFormat) (x : FloatFields) :
    isFinite f x = true ↔ x.e ≠ expAllOnes f := by
  unfold isFinite floatClass
  by_cases h0 : x.frac = 0 <;> cases f <;> simp only [expAllOnes, h0] <;> split_ifs <;> simp_all

/-- The rounded significand lies between 2^P and 2^(P+1), the upper bound being the carry case of
41_float_conversion.md R75. -/
theorem roundedSignificand_bounds (mode : RoundingDirection) (neg : Bool) (p : Nat) {m : Nat}
    (hm : m ≠ 0) :
    2 ^ p ≤ roundedSignificand mode neg p m ∧ roundedSignificand mode neg p m ≤ 2 ^ (p + 1) := by
  have hlo : 2 ^ m.log2 ≤ m := Nat.log2_self_le hm
  have hhi : m < 2 ^ (m.log2 + 1) := Nat.lt_log2_self
  unfold roundedSignificand
  split
  · rename_i h
    rw [Nat.shiftLeft_eq]
    have e1 : 2 ^ p = 2 ^ m.log2 * 2 ^ (p - m.log2) := by rw [← pow_add]; congr 1; omega
    have e2 : 2 ^ (p + 1) = 2 ^ (m.log2 + 1) * 2 ^ (p - m.log2) := by rw [← pow_add]; congr 1; omega
    rw [e1, e2]
    exact ⟨Nat.mul_le_mul_right _ hlo, Nat.mul_le_mul_right _ hhi.le⟩
  · rename_i h
    have e1 : 2 ^ m.log2 = 2 ^ p * 2 ^ (m.log2 - p) := by rw [← pow_add]; congr 1; omega
    have e2 : 2 ^ (m.log2 + 1) = 2 ^ (p + 1) * 2 ^ (m.log2 - p) := by
      rw [← pow_add]; congr 1; omega
    have hq : 2 ^ p ≤ m >>> (m.log2 - p) := by
      rw [Nat.shiftRight_eq_div_pow, Nat.le_div_iff_mul_le (by positivity), ← e1]; exact hlo
    have hq' : m >>> (m.log2 - p) < 2 ^ (p + 1) := by
      rw [Nat.shiftRight_eq_div_pow, Nat.div_lt_iff_lt_mul (by positivity), ← e2]; exact hhi
    simp only
    split <;> omega

end Sys2Proof.Machine
end

