-- ==== Sys2Proof/Laws/PerInstr.lean ====
section
/-! SUPPORT. Statements about every operation as it is written and encoded, one lemma per constructor. -/

namespace Sys2Proof.Laws

/-- The op code of an operation passes the field check of 30_encoding.md R38, which the encoder does not consult. -/
def EncodingDefined.Statement (i : Instr) : Prop := i.wf = true ∧ opDefined (encode i) = true

theorem EncodingDefined.i2xS8 : EncodingDefined.Statement .i2xS8 := by unfold EncodingDefined.Statement; decide
theorem EncodingDefined.i2xS16 : EncodingDefined.Statement .i2xS16 := by unfold EncodingDefined.Statement; decide
theorem EncodingDefined.i2xS32 : EncodingDefined.Statement .i2xS32 := by unfold EncodingDefined.Statement; decide
theorem EncodingDefined.i2xS64 : EncodingDefined.Statement .i2xS64 := by unfold EncodingDefined.Statement; decide
theorem EncodingDefined.i2xU8 : EncodingDefined.Statement .i2xU8 := by unfold EncodingDefined.Statement; decide
theorem EncodingDefined.i2xU16 : EncodingDefined.Statement .i2xU16 := by unfold EncodingDefined.Statement; decide
theorem EncodingDefined.i2xU32 : EncodingDefined.Statement .i2xU32 := by unfold EncodingDefined.Statement; decide
theorem EncodingDefined.i2xU64 : EncodingDefined.Statement .i2xU64 := by unfold EncodingDefined.Statement; decide
theorem EncodingDefined.x2iS32 : EncodingDefined.Statement .x2iS32 := by unfold EncodingDefined.Statement; decide
theorem EncodingDefined.x2iS64 : EncodingDefined.Statement .x2iS64 := by unfold EncodingDefined.Statement; decide
theorem EncodingDefined.f2xF32 : EncodingDefined.Statement .f2xF32 := by unfold EncodingDefined.Statement; decide
theorem EncodingDefined.f2xF64 : EncodingDefined.Statement .f2xF64 := by unfold EncodingDefined.Statement; decide
theorem EncodingDefined.x2fF32 : EncodingDefined.Statement .x2fF32 := by unfold EncodingDefined.Statement; decide
theorem EncodingDefined.x2fF64 : EncodingDefined.Statement .x2fF64 := by unfold EncodingDefined.Statement; decide
theorem EncodingDefined.add : EncodingDefined.Statement .add := by unfold EncodingDefined.Statement; decide
theorem EncodingDefined.sub : EncodingDefined.Statement .sub := by unfold EncodingDefined.Statement; decide
theorem EncodingDefined.mul : EncodingDefined.Statement .mul := by unfold EncodingDefined.Statement; decide
theorem EncodingDefined.div : EncodingDefined.Statement .div := by unfold EncodingDefined.Statement; decide
theorem EncodingDefined.cmpeq : EncodingDefined.Statement .cmpeq := by unfold EncodingDefined.Statement; decide
theorem EncodingDefined.cmpne : EncodingDefined.Statement .cmpne := by unfold EncodingDefined.Statement; decide
theorem EncodingDefined.cmplt : EncodingDefined.Statement .cmplt := by unfold EncodingDefined.Statement; decide
theorem EncodingDefined.cmple : EncodingDefined.Statement .cmple := by unfold EncodingDefined.Statement; decide
theorem EncodingDefined.cmpgt : EncodingDefined.Statement .cmpgt := by unfold EncodingDefined.Statement; decide
theorem EncodingDefined.cmpge : EncodingDefined.Statement .cmpge := by unfold EncodingDefined.Statement; decide

end Sys2Proof.Laws
end

