-- ==== Sys2Proof/Laws/Step.lean ====
section
/-! SUPPORT. What an operation and a step can do, said once. -/

namespace Sys2Proof.Machine

/-! Each arm of `exec` as one transaction; later proofs cite these and never unfold `exec`. -/

theorem exec_i2xS8 : exec .i2xS8 = transact (fun a _ => signedToFixed (sext 8 a)) := rfl
theorem exec_i2xS16 : exec .i2xS16 = transact (fun a _ => signedToFixed (sext 16 a)) := rfl
theorem exec_i2xS32 : exec .i2xS32 = transact (fun a _ => signedToFixed (sext 32 a)) := rfl
theorem exec_i2xS64 : exec .i2xS64 = transact (fun a _ => signedToFixed a) := rfl
theorem exec_i2xU8 : exec .i2xU8 = transact (fun a _ => unsignedToFixed (zext 8 a)) := rfl
theorem exec_i2xU16 : exec .i2xU16 = transact (fun a _ => unsignedToFixed (zext 16 a)) := rfl
theorem exec_i2xU32 : exec .i2xU32 = transact (fun a _ => unsignedToFixed (zext 32 a)) := rfl
theorem exec_i2xU64 : exec .i2xU64 = transact (fun a _ => unsignedToFixed a) := rfl
theorem exec_x2iS32 : exec .x2iS32 = transact (fun a _ => sext 32 (fixedToInt a)) := rfl
theorem exec_x2iS64 : exec .x2iS64 = transact (fun a _ => fixedToInt a) := rfl
theorem exec_f2xF32 : exec .f2xF32 = transact (fun a _ => floatToFixed Config.fastFloatConv .f32 (floatOperand .f32 a)) := rfl
theorem exec_f2xF64 : exec .f2xF64 = transact (fun a _ => floatToFixed Config.fastFloatConv .f64 (floatOperand .f64 a)) := rfl
theorem exec_x2fF32 : exec .x2fF32 = transact (fun a _ => zext 32 (fixedToFloat Config.fastFloatConv Config.x2fRound .f32 a)) := rfl
theorem exec_x2fF64 : exec .x2fF64 = transact (fun a _ => fixedToFloat Config.fastFloatConv Config.x2fRound .f64 a) := rfl
theorem exec_add : exec .add = transact addWord := rfl
theorem exec_sub : exec .sub = transact subWord := rfl
theorem exec_mul : exec .mul = transact mulWord := rfl
theorem exec_div : exec .div = transact divWord := rfl
theorem exec_cmpeq : exec .cmpeq = transact (fun a b => truthWord (wordEq a b)) := rfl
theorem exec_cmpne : exec .cmpne = transact (fun a b => truthWord (!wordEq a b)) := rfl
theorem exec_cmplt : exec .cmplt = transact (fun a b => truthWord (signedLt a b)) := rfl
theorem exec_cmple : exec .cmple = transact (fun a b => truthWord (signedLe a b)) := rfl
theorem exec_cmpgt : exec .cmpgt = transact (fun a b => truthWord (signedLt b a)) := rfl
theorem exec_cmpge : exec .cmpge = transact (fun a b => truthWord (signedLe b a)) := rfl

/-- Every operation is one transaction with some function of the two operands (00_scope.md R12): the lemma every claim about
what `exec` leaves unchanged goes through. -/
theorem exec_is_transaction (i : Instr) : ∃ f : Word → Word → Word, exec i = transact f := by
  cases i
  case i2xS8 => exact ⟨_, exec_i2xS8⟩
  case i2xS16 => exact ⟨_, exec_i2xS16⟩
  case i2xS32 => exact ⟨_, exec_i2xS32⟩
  case i2xS64 => exact ⟨_, exec_i2xS64⟩
  case i2xU8 => exact ⟨_, exec_i2xU8⟩
  case i2xU16 => exact ⟨_, exec_i2xU16⟩
  case i2xU32 => exact ⟨_, exec_i2xU32⟩
  case i2xU64 => exact ⟨_, exec_i2xU64⟩
  case x2iS32 => exact ⟨_, exec_x2iS32⟩
  case x2iS64 => exact ⟨_, exec_x2iS64⟩
  case f2xF32 => exact ⟨_, exec_f2xF32⟩
  case f2xF64 => exact ⟨_, exec_f2xF64⟩
  case x2fF32 => exact ⟨_, exec_x2fF32⟩
  case x2fF64 => exact ⟨_, exec_x2fF64⟩
  case add => exact ⟨_, exec_add⟩
  case sub => exact ⟨_, exec_sub⟩
  case mul => exact ⟨_, exec_mul⟩
  case div => exact ⟨_, exec_div⟩
  case cmpeq => exact ⟨_, exec_cmpeq⟩
  case cmpne => exact ⟨_, exec_cmpne⟩
  case cmplt => exact ⟨_, exec_cmplt⟩
  case cmple => exact ⟨_, exec_cmple⟩
  case cmpgt => exact ⟨_, exec_cmpgt⟩
  case cmpge => exact ⟨_, exec_cmpge⟩

/-- Everything an operation can do when it answers a next state: the presented transaction is dropped and answered. -/
theorem exec_next {i : Instr} {s t : State} (h : exec i s = .next t) :
    ∃ q rest w, s.requests = q :: rest ∧ t = { requests := rest, r := some w } := by
  obtain ⟨f, hf⟩ := exec_is_transaction i
  rw [hf] at h
  obtain ⟨q, rest, hq, ht⟩ := transact_next_iff.1 h
  exact ⟨q, rest, _, hq, ht⟩

@[simp] theorem step_nil (r0 : Option Word) : step ⟨[], r0⟩ = .refused .noTransaction := rfl

theorem step_cons_op {q : Request} {i : Instr} (h : decode q.op = .op i)
    (rest : List Request) (r0 : Option Word) :
    step ⟨q :: rest, r0⟩ = exec i ⟨q :: rest, r0⟩ := by
  simp [step, h]

theorem step_cons_reserved {q : Request} {c : OpCode} (h : decode q.op = .reserved c)
    (rest : List Request) (r0 : Option Word) :
    step ⟨q :: rest, r0⟩ = .refused (.reservedOpCode c) := by
  simp [step, h]

/-- The decoder reads back what the encoder writes. -/
theorem decode_encode (i : Instr) : decode (encode i) = .op i := by
  cases i <;> rfl

/-- The answer of the core to one transaction presented alone (10_state.md R19). -/
theorem ask_of_transact {i : Instr} {f : Word → Word → Word} (h : exec i = transact f)
    (a b : Word) : ask i a b = some (f a b) := by
  have hs : step ⟨[⟨encode i, a, b⟩], none⟩ = .next ⟨[], some (f a b)⟩ := by
    rw [step_cons_op (i := i) (decode_encode i), h]; rfl
  unfold ask
  rw [show State.reset.present ⟨encode i, a, b⟩ = ⟨[⟨encode i, a, b⟩], none⟩ from rfl, hs]

/-- Everything a step can do when it answers a next state. -/
theorem step_next {s t : State} (h : step s = .next t) :
    ∃ q rest i, s.requests = q :: rest ∧ decode q.op = .op i ∧ exec i s = .next t := by
  unfold step at h
  cases hs : s.requests with
  | nil => simp [hs] at h
  | cons q rest =>
    cases hd : decode q.op with
    | op i => exact ⟨q, rest, i, rfl, hd, by simpa [hs, hd] using h⟩
    | reserved c => simp [hs, hd] at h

end Sys2Proof.Machine
end

