-- ==== Sys2Proof/Tests/Slice0.lean ====
section
/-! SUPPORT. Tests of the model's own: expected values are the vectors and worked examples of spec/ (95_test_vectors.md and the
operation rules), op codes are written out from 30_encoding.md; and a witness for the hypotheses of each statement. -/

open Sys2Proof Sys2Proof.Machine

namespace Sys2Proof.Tests

/-- The response of one step on a state that presents one transaction. -/
def answerOf (op : OpCode) (a b : Word) : Option Word :=
  match step ⟨[⟨op, a, b⟩], none⟩ with
  | .next t => t.r
  | .fault _ => none
  | .refused _ => none

/-! ### Well-formedness smoke: each check refuses an ill-formed term -/

theorem test_wf_accepts_add : Request.wf ⟨0x40#8, 0#64, 0#64⟩ = true := by decide
theorem test_wf_refuses_i2x_bit3 : Request.wf ⟨0x08#8, 0#64, 0#64⟩ = false := by decide
theorem test_wf_refuses_x2i_width8 : Request.wf ⟨0x10#8, 0#64, 0#64⟩ = false := by decide
theorem test_wf_refuses_x2i_unsigned : Request.wf ⟨0x16#8, 0#64, 0#64⟩ = false := by decide
theorem test_wf_refuses_f2x_width16 : Request.wf ⟨0x21#8, 0#64, 0#64⟩ = false := by decide
theorem test_wf_refuses_f2x_bit2 : Request.wf ⟨0x26#8, 0#64, 0#64⟩ = false := by decide
theorem test_wf_refuses_x2f_width16 : Request.wf ⟨0x31#8, 0#64, 0#64⟩ = false := by decide
theorem test_wf_refuses_x2f_bit3 : Request.wf ⟨0x3A#8, 0#64, 0#64⟩ = false := by decide
theorem test_wf_refuses_arith_function_4 : Request.wf ⟨0x44#8, 0#64, 0#64⟩ = false := by decide
theorem test_wf_refuses_cmp_function_6 : Request.wf ⟨0x56#8, 0#64, 0#64⟩ = false := by decide
theorem test_wf_refuses_group_6 : Request.wf ⟨0x60#8, 0#64, 0#64⟩ = false := by decide

/-! ### Decoding, bit by bit from 30_encoding.md -/

theorem test_decode_i2x_s8 : decode 0b00000000#8 = .op .i2xS8 := by decide
theorem test_decode_i2x_s16 : decode 0b00000001#8 = .op .i2xS16 := by decide
theorem test_decode_i2x_s32 : decode 0b00000010#8 = .op .i2xS32 := by decide
theorem test_decode_i2x_s64 : decode 0b00000011#8 = .op .i2xS64 := by decide
theorem test_decode_i2x_u8 : decode 0b00000100#8 = .op .i2xU8 := by decide
theorem test_decode_i2x_u16 : decode 0b00000101#8 = .op .i2xU16 := by decide
theorem test_decode_i2x_u32 : decode 0b00000110#8 = .op .i2xU32 := by decide
theorem test_decode_i2x_u64 : decode 0b00000111#8 = .op .i2xU64 := by decide
theorem test_decode_x2i_s32 : decode 0b00010010#8 = .op .x2iS32 := by decide
theorem test_decode_x2i_s64 : decode 0b00010011#8 = .op .x2iS64 := by decide
theorem test_decode_f2x_f32 : decode 0b00100010#8 = .op .f2xF32 := by decide
theorem test_decode_f2x_f64 : decode 0b00100011#8 = .op .f2xF64 := by decide
theorem test_decode_x2f_f32 : decode 0b00110010#8 = .op .x2fF32 := by decide
theorem test_decode_x2f_f64 : decode 0b00110011#8 = .op .x2fF64 := by decide
theorem test_decode_add : decode 0b01000000#8 = .op .add := by decide
theorem test_decode_sub : decode 0b01000001#8 = .op .sub := by decide
theorem test_decode_mul : decode 0b01000010#8 = .op .mul := by decide
theorem test_decode_div : decode 0b01000011#8 = .op .div := by decide
theorem test_decode_cmpeq : decode 0b01010000#8 = .op .cmpeq := by decide
theorem test_decode_cmpne : decode 0b01010001#8 = .op .cmpne := by decide
theorem test_decode_cmplt : decode 0b01010010#8 = .op .cmplt := by decide
theorem test_decode_cmple : decode 0b01010011#8 = .op .cmple := by decide
theorem test_decode_cmpgt : decode 0b01010100#8 = .op .cmpgt := by decide
theorem test_decode_cmpge : decode 0b01010101#8 = .op .cmpge := by decide
theorem test_decode_reserved_14 : decode 0x14#8 = .reserved 0x14#8 := by decide
theorem test_decode_reserved_ff : decode 0xFF#8 = .reserved 0xFF#8 := by decide
/-- The 136-bit form of step 3 of example E1 of 95_test_vectors.md. -/
theorem test_decode_transaction_e1 :
    decodeTransaction 0x4000000000030000000000000004000000#136 = .txn .add 0x3000000#64 0x4000000#64 := by
  decide

/-! ### One step of each operation (vectors of 95_test_vectors.md section 2) -/

theorem test_i2x_s8_upper_bits : answerOf 0x00#8 0x1FF#64 7#64 = some 0xFFFFFFFFFF000000#64 := by decide
theorem test_i2x_s16_upper_bits : answerOf 0x01#8 0xFFFF0001#64 0#64 = some 0x1000000#64 := by decide
theorem test_i2x_s32_sign : answerOf 0x02#8 0xFFFFFFFF#64 0#64 = some 0xFFFFFFFFFF000000#64 := by decide
theorem test_i2x_s64_wraps : answerOf 0x03#8 0xFFFFFF7FFFFFFFFF#64 0#64 = some 0x7FFFFFFFFF000000#64 := by decide
theorem test_i2x_u8_upper_bits : answerOf 0x04#8 0x1FF#64 0#64 = some 0xFF000000#64 := by decide
theorem test_i2x_u16 : answerOf 0x05#8 0xFFFF#64 0#64 = some 0x000000FFFF000000#64 := by decide
theorem test_i2x_u32 : answerOf 0x06#8 0xFFFFFFFF#64 0#64 = some 0x00FFFFFFFF000000#64 := by decide
theorem test_i2x_u64_reads_negative : answerOf 0x07#8 0x8000000000#64 0#64 = some 0x8000000000000000#64 := by decide
theorem test_x2i_s32_wraps : answerOf 0x12#8 0xFF7FFFFFFF000000#64 0#64 = some 0x7FFFFFFF#64 := by decide
theorem test_x2i_s64_toward_zero : answerOf 0x13#8 0xFFFFFFFFFD800000#64 0#64 = some 0xFFFFFFFFFFFFFFFE#64 := by decide
theorem test_f2x_f32_upper_bits : ∀ fast : Bool,
    floatToFixed fast .f32 (floatOperand .f32 0xDEADBEEF3FC00000#64) = 0x1800000#64 := by decide
theorem test_f2x_f32_out_of_range : ∀ fast : Bool,
    floatToFixed fast .f32 0xD3000001#64 = Config.f2xInvalid .f32 0xD3000001#64 := by
  intro fast; cases fast <;> rfl
theorem test_f2x_f64_toward_zero : ∀ fast : Bool,
    floatToFixed fast .f64 0xBFB999999999999A#64 = 0xFFFFFFFFFFE66667#64 := by decide
theorem test_f2x_f64_nan : ∀ fast : Bool,
    floatToFixed fast .f64 0x7FF8000000000000#64 = Config.f2xInvalid .f64 0x7FF8000000000000#64 := by
  intro fast; cases fast <;> rfl
theorem test_x2f_f32_directions : ∀ fast : Bool,
    fixedToFloat fast .tiesToEven .f32 0xFFFFFFFFFEFFFFFF#64 = 0xBF800000#64 ∧
    fixedToFloat fast .towardZero .f32 0xFFFFFFFFFEFFFFFF#64 = 0xBF800000#64 ∧
    fixedToFloat fast .towardPositive .f32 0xFFFFFFFFFEFFFFFF#64 = 0xBF800000#64 ∧
    fixedToFloat fast .towardNegative .f32 0xFFFFFFFFFEFFFFFF#64 = 0xBF800001#64 := by decide
theorem test_x2f_f32_tie_and_carry : ∀ fast : Bool,
    fixedToFloat fast .tiesToEven .f32 0x3000006#64 = 0x40400002#64 ∧
    fixedToFloat fast .tiesToEven .f32 0x1FFFFFF#64 = 0x40000000#64 := by decide
theorem test_x2f_f64_directions : ∀ fast : Bool,
    fixedToFloat fast .tiesToEven .f64 0x8000000000000001#64 = 0xC260000000000000#64 ∧
    fixedToFloat fast .towardZero .f64 0x8000000000000001#64 = 0xC25FFFFFFFFFFFFF#64 ∧
    fixedToFloat fast .towardPositive .f64 0x8000000000000001#64 = 0xC25FFFFFFFFFFFFF#64 ∧
    fixedToFloat fast .towardNegative .f64 0x8000000000000001#64 = 0xC260000000000000#64 := by decide
theorem test_x2f_f64_tie : ∀ fast : Bool,
    fixedToFloat fast .tiesToEven .f64 0x0020000000000003#64 = 0x41C0000000000002#64 := by decide
theorem test_add_wraps : answerOf 0x40#8 0x7FFFFFFFFFFFFFFF#64 0x1000000#64 = some 0x8000000000FFFFFF#64 := by decide
theorem test_sub_order : answerOf 0x41#8 0x3000000#64 0x4000000#64 = some 0xFFFFFFFFFF000000#64 := by decide
theorem test_mul_logical_shift :
    answerOf 0x42#8 0x0000010000000000#64 0x0000008000000000#64 = some 0x0080000000000000#64 := by decide
theorem test_mul_sign_and_wrap :
    answerOf 0x42#8 0x7FFFFFFFFFFFFFFF#64 0x8000000000000001#64 = some 0xFF01000000000000#64 := by decide
theorem test_div_low_divisor_bits :
    answerOf 0x43#8 0x1000000#64 0x1FF#64 = some 0x0000010000000000#64 := by decide
theorem test_div_sentinel_sign :
    answerOf 0x43#8 0#64 0xFFFFFFFFFFFFFFFB#64 = some 0x8000000000000001#64 := by decide
theorem test_cmpeq : answerOf 0x50#8 0x7000000#64 0x7000001#64 = some 0#64 := by decide
theorem test_cmpne : answerOf 0x51#8 0x7000000#64 0x7000001#64 = some 1#64 := by decide
theorem test_cmplt_signed : answerOf 0x52#8 0x8000000000000000#64 0x7FFFFFFFFFFFFFFF#64 = some 1#64 := by decide
theorem test_cmple_equal : answerOf 0x53#8 0x8000000000000000#64 0x8000000000000000#64 = some 1#64 := by decide
theorem test_cmpgt_signed : answerOf 0x54#8 0xFFFFFFFFFFFFFFFF#64 0xFFFFFFFFFFFFFFFE#64 = some 1#64 := by decide
theorem test_cmpge_signed : answerOf 0x55#8 0xFFFFFFFFF6000000#64 0x0A000000#64 = some 0#64 := by decide

/-! ### The step around the operations, the host's placing, the pseudo-operations -/

theorem test_step_consumes_one :
    step ⟨[⟨0x40#8, 1#64, 2#64⟩, ⟨0x41#8, 5#64, 3#64⟩], some 9#64⟩ =
      .next ⟨[⟨0x41#8, 5#64, 3#64⟩], some 3#64⟩ := by rfl
theorem test_step_reserved_refused :
    step ⟨[⟨0x56#8, 1#64, 2#64⟩], none⟩ = .refused (.reservedOpCode 0x56#8) := by rfl
theorem test_table_word_decodes : decodeTableWord 8 0x43 = some .div := by decide
theorem test_fetch_word_from_reset :
    step (State.reset.withFetchWord 8 0x43) = .next ⟨[], some 0x7FFFFFFFFFFFFFFF#64⟩ := by rfl
theorem test_mixed_left :
    mixedLeft .sub .u8 0xC8#64 0x1800000#64 = some 0xC6800000#64 := by decide
theorem test_neg_most_negative : negPseudo 0x8000000000000000#64 = some 0x8000000000000000#64 := by decide
theorem test_assign_add_to_itself :
    assignPseudo .add Config.posSentinel Config.posSentinel = some 0xFFFFFFFFFFFFFFFE#64 := by decide
theorem test_line_reuses_a_name :
    Line.run [(0, 0x3000000#64), (1, 0x4000000#64)] ⟨0, .add, .name 0, some (.name 1)⟩ =
      some [(0, 0x7000000#64), (0, 0x3000000#64), (1, 0x4000000#64)] := by decide

/-! ### Witnesses: the hypotheses of each statement can be met -/

theorem witness_decoder_reserved : decode 0x11#8 = .reserved 0x11#8 ∧ decode 0x08#8 = .reserved 0x08#8 := by decide
theorem witness_step_runs : decode (Request.mk 0x42#8 1#64 2#64).op = .op .mul := by decide
theorem witness_step_outcomes :
    opDefined (Request.mk 0x55#8 0#64 0#64).op = true ∧ opDefined (Request.mk 0x56#8 0#64 0#64).op = false := by decide
theorem witness_answer_next :
    step ⟨[⟨0x40#8, 1#64, 2#64⟩], none⟩ = .next ⟨[], some 3#64⟩ ∧
    step ⟨[⟨0xFF#8, 1#64, 2#64⟩], none⟩ = .refused (.reservedOpCode 0xFF#8) := ⟨rfl, rfl⟩
theorem witness_order :
    (∀ q ∈ [Request.mk 0x40#8 1#64 2#64, ⟨0x41#8, 3#64, 4#64⟩], opDefined q.op = true) ∧
    [Request.mk 0x40#8 1#64 2#64, ⟨0x41#8, 3#64, 4#64⟩].Perm [⟨0x41#8, 3#64, 4#64⟩, ⟨0x40#8, 1#64, 2#64⟩] := by
  refine ⟨by decide, .swap _ _ _⟩
theorem witness_pending :
    PendingDefined ⟨[⟨0x40#8, 1#64, 2#64⟩, ⟨0x41#8, 3#64, 4#64⟩], none⟩ ∧
    2 ≤ [Request.mk 0x40#8 1#64 2#64, ⟨0x41#8, 3#64, 4#64⟩].length := by
  unfold PendingDefined; decide
theorem witness_step_keeps :
    PendingDefined ⟨[⟨0x40#8, 1#64, 2#64⟩], none⟩ ∧
    step ⟨[⟨0x40#8, 1#64, 2#64⟩], none⟩ = .next ⟨[], some 3#64⟩ ∧
    opDefined (Request.mk 0x41#8 3#64 4#64).op = true := ⟨by unfold PendingDefined; decide, rfl, by decide⟩
theorem witness_unused_bits :
    (0x1FF#64 : Word).toNat % 2 ^ 8 = (0xFF#64 : Word).toNat % 2 ^ 8 ∧ (0x1FF#64 : Word) ≠ 0xFF#64 := by decide
theorem witness_i2x_s64_range :
    -2 ^ 39 ≤ (0xFFFFFF8000000000#64 : Word).toInt ∧ (0x7FFFFFFFFF#64 : Word).toInt ≤ 2 ^ 39 - 1 ∧
    (0xFFFFFF8000000000#64 : Word).toInt = -2 ^ 39 ∧ (0x7FFFFFFFFF#64 : Word).toInt = 2 ^ 39 - 1 := by decide
theorem witness_i2x_u64_ranges :
    (0x7FFFFFFFFF#64 : Word).toNat = 2 ^ 39 - 1 ∧ (0x8000000000#64 : Word).toNat = 2 ^ 39 ∧
    (0xFFFFFFFFFF#64 : Word).toNat = 2 ^ 40 - 1 ∧ (0x10000000000#64 : Word).toNat = 2 ^ 40 := by decide
theorem witness_x2i_s32_range :
    (fixedToInt 0xFF80000000000000#64).toInt = -2 ^ 31 ∧ (fixedToInt 0x007FFFFFFF000000#64).toInt = 2 ^ 31 - 1 := by decide
theorem witness_int_round_trip :
    -2 ^ 31 ≤ (0xFFFFFFFF80000000#64 : Word).toInt ∧ (0x7FFFFFFF#64 : Word).toInt ≤ 2 ^ 31 - 1 ∧
    (0x3000000#64 : Word).toNat % 2 ^ 24 = 0 ∧ (0x3000001#64 : Word).toNat % 2 ^ 24 ≠ 0 := by decide
theorem witness_f32_exponents :
    (floatFields .f32 0x7F800000#64).e = 255 ∧ (floatFields .f32 0x7F7FFFFF#64).e = 254 ∧
    (floatFields .f32 0x007FFFFF#64).e = 0 := by decide
theorem witness_f32_small :
    (floatFields .f32 0x337FFFFF#64).e < 255 ∧ |fvalRat .f32 0x337FFFFF#64| < (2 : ℚ) ^ (-24 : ℤ) := by
  have h : floatFields .f32 0x337FFFFF#64 = ⟨false, 102, 8388607⟩ := by decide
  refine ⟨by decide, ?_⟩
  simp only [fvalRat, h]
  norm_num [fracBits, bias, abs_lt]
theorem witness_f32_large :
    (floatFields .f32 0xD3000000#64).e < 255 ∧ 1 ≤ |fvalRat .f32 0xD3000000#64| ∧
    truncRat (fvalRat .f32 0xD3000000#64 * 2 ^ 24) = -2 ^ 63 := by
  have h : fvalRat .f32 0xD3000000#64 = -(2 ^ 39) := by
    have h : floatFields .f32 0xD3000000#64 = ⟨true, 166, 0⟩ := by decide
    simp only [fvalRat, h]
    norm_num [fracBits, bias]
  refine ⟨by decide, ?_, ?_⟩
  · rw [h]; norm_num [abs_of_neg]
  · rw [h]; norm_num [truncRat]
theorem witness_f64_exponents :
    (floatFields .f64 0xFFF0000000000000#64).e = 2047 ∧ (floatFields .f64 0x7FEFFFFFFFFFFFFF#64).e = 2046 ∧
    (floatFields .f64 0x800FFFFFFFFFFFFF#64).e = 0 := by decide
theorem witness_float_domain :
    isFinite .f32 (floatFields .f32 (floatOperand .f32 0x3FC00000#64)) = true ∧
    inDomainPattern .f32 (floatOperand .f32 0xD3000000#64) = true ∧
    inDomainPattern .f32 (floatOperand .f32 0x52FFFFFF#64) = true ∧
    inDomainPattern .f64 (floatOperand .f64 0xC260000000000000#64) = true ∧
    inDomainPattern .f64 (floatOperand .f64 0x425FFFFFFFFFFFFF#64) = true := by decide
theorem witness_f32_inexact :
    ∀ m k : Nat, m < 2 ^ 24 → (0x1000001#64 : Word).toInt.natAbs ≠ m * 2 ^ k := by
  intro m k hm h
  have h' : 16777217 = m * 2 ^ k := h
  cases k with
  | zero => omega
  | succ k =>
    have h2 : 16777217 = m * 2 ^ k * 2 := by rw [h', pow_succ, mul_assoc]
    clear h h'
    omega
theorem witness_f64_exact : (0x001FFFFFFFFFFFFF#64 : Word).toInt.natAbs < 2 ^ 53 := by decide
theorem witness_float_result :
    (1#64 : Word) ≠ 0#64 ∧ ∃ m k : Nat, m < 2 ^ (fracBits .f32 + 1) ∧
      (0x8000000000000000#64 : Word).toInt.natAbs = m * 2 ^ k := ⟨by decide, 1, 63, by decide, by decide⟩
theorem witness_float_round_trip :
    inDomainPattern .f32 (floatOperand .f32 0x3FC00000#64) = true ∧
    ∃ n : ℤ, fvalRat .f32 (floatOperand .f32 0x3FC00000#64) * 2 ^ 24 = n := by
  have h : floatFields .f32 (floatOperand .f32 0x3FC00000#64) = ⟨false, 127, 4194304⟩ := by decide
  refine ⟨by decide, 25165824, ?_⟩
  simp only [fvalRat, h]
  norm_num [fracBits, bias]
theorem witness_add_ranges :
    (0x7FFFFFFFFFFFFFFE#64 : Word).toInt + (1#64 : Word).toInt = 2 ^ 63 - 1 ∧
    2 ^ 63 - 1 < (0x7FFFFFFFFFFFFFFF#64 : Word).toInt + (1#64 : Word).toInt ∧
    (0x8000000000000000#64 : Word).toInt + (0xFFFFFFFFFFFFFFFF#64 : Word).toInt < -2 ^ 63 := by decide
theorem witness_sub_ranges :
    (0x8000000000000001#64 : Word).toInt - (1#64 : Word).toInt = -2 ^ 63 ∧
    2 ^ 63 - 1 < (0#64 : Word).toInt - (0x8000000000000000#64 : Word).toInt ∧
    (0x8000000000000000#64 : Word).toInt - (1#64 : Word).toInt < -2 ^ 63 := by decide
theorem witness_mul_fits :
    (0x10000000000#64 : Word).toInt.natAbs / 256 * ((0xFFFF000000#64 : Word).toInt.natAbs / 256) < 2 ^ 64 ∧
    |rval 0x1800000#64| * |rval 0x2000000#64| < 2 ^ 32 ∧ mulWord 0xFFFFFFFFFD000000#64 0x4000000#64 ≠ 0#64 := by
  have h1 : (0x1800000#64 : Word).toInt = 25165824 := by decide
  have h2 : (0x2000000#64 : Word).toInt = 33554432 := by decide
  refine ⟨by decide, ?_, by decide⟩
  simp only [rval, h1, h2]
  norm_num [abs_of_pos]
theorem witness_mul_exact :
    (0x1800000#64 : Word).toInt.natAbs % 256 = 0 ∧ (0x2000000#64 : Word).toInt.natAbs % 256 = 0 ∧
    (0x1800000#64 : Word).toInt.natAbs * (0x2000000#64 : Word).toInt.natAbs % 2 ^ 24 = 0 ∧
    (0x1800000#64 : Word).toInt.natAbs / 256 * ((0x2000000#64 : Word).toInt.natAbs / 256) < 2 ^ 64 ∧
    (0xFFFFFFFFFF000000#64 : Word).toInt = -1 * 2 ^ 24 ∧ (0xFFFFFFFF000000#64 : Word).toInt = 4294967295 * 2 ^ 24 ∧
    |(-1 : Int) * 4294967295| < 2 ^ 32 ∧ (0x00FFFFFFFFFFFFFF#64 : Word).toInt.natAbs < 2 ^ 56 := by decide
theorem witness_mul_negation : (0x8000000000000001#64 : Word) ≠ 0x8000000000000000#64 := by decide
theorem witness_div_small :
    |(0xFFFFFFFFFFFFFF01#64 : Word).toInt| ≤ 255 ∧ (0x0A000000#64 : Word).msb = (1#64 : Word).msb ∧
    256 ≤ |(0xFFFFFFFFFFFFFF00#64 : Word).toInt| := by decide
theorem witness_div_error :
    (0x1FF#64 : Word).toInt.natAbs / 256 ≠ 0 ∧ (0x003FFFFFFFFFFFFF#64 : Word).toInt.natAbs < 2 ^ 54 ∧
    (0x003FFFFFFFFFFFFF#64 : Word).toInt.natAbs * 1024 / ((0x1000000#64 : Word).toInt.natAbs / 256) < 2 ^ 57 ∧
    (0x1000000#64 : Word).toInt.natAbs / 256 ≠ 0 := by decide
theorem witness_div_exact :
    (0x2000000#64 : Word).toInt ≠ 0 ∧ (0x2000000#64 : Word).toInt.natAbs % 256 = 0 ∧
    (0x7000000#64 : Word).toInt.natAbs < 2 ^ 54 ∧
    (0x7000000#64 : Word).toInt.natAbs * 1024 / ((0x2000000#64 : Word).toInt.natAbs / 256) < 2 ^ 57 := by decide
theorem witness_div_odd : (1#64 : Word) ≠ 0#64 ∧ (1#64 : Word) ≠ 0x8000000000000000#64 := by decide
theorem witness_order_transitive :
    ask .cmple 1#64 2#64 = some 1#64 ∧ ask .cmple 2#64 3#64 = some 1#64 := by decide
theorem witness_compound :
    (Source.name 0).value [(0, 0x3000000#64), (1, 0x4000000#64)] = some 0x3000000#64 ∧
    (Source.name 1).value [(0, 0x3000000#64), (1, 0x4000000#64)] = some 0x4000000#64 := by decide

end Sys2Proof.Tests
end

section
namespace Sys2Proof.Machine

/-- With an encoded operation presented, the step is that operation's meaning (30_encoding.md R41). -/
theorem step_cons_encode (i : Instr) (a b : Word) (rest : List Request) (r0 : Option Word) :
    step ⟨⟨encode i, a, b⟩ :: rest, r0⟩ = exec i ⟨⟨encode i, a, b⟩ :: rest, r0⟩ :=
  step_cons_op (decode_encode i) rest r0

/-- Settles O6: `respond i` is the function of the one transaction that operation `i` is, so it is chosen before the state,
the op bits and the earlier answer are given; the step adds only the decoding of `encode i`. -/
theorem everyOperationIsOnePureTotalFunction :
    Obligations.EveryOperationIsOnePureTotalFunction := by
  choose respond exec_eq using exec_is_transaction
  refine ⟨respond, fun i op a b rest r0 => ?_, fun i a b rest r0 => ?_⟩
  · rw [exec_eq, transact_cons]
  · rw [step_cons_encode, exec_eq, transact_cons]

end Sys2Proof.Machine
end

section
namespace Sys2Proof.Machine

/-! The integer constructions as arithmetic (40_int_conversion.md R50, R55, R60). -/

/-- The signed construction written out on the word (40_int_conversion.md R50). -/
theorem signedToFixed_eq_ite (x : Word) :
    signedToFixed x = if x.msb then -((-x) <<< 24) else x <<< 24 := by
  unfold signedToFixed applySign mag64 sgn
  split
  · rfl
  · rfl

/-- A left shift is the product with a power of two, modulo 2^64. -/
theorem lsl64_eq_word (x : Word) (k : Nat) : lsl64 x k = word (x.toInt * 2 ^ k) := by
  refine BitVec.eq_of_toInt_eq ?_
  rw [lsl64, BitVec.toInt_shiftLeft, BitVec.toInt_ofInt, BitVec.toInt_eq_toNat_bmod, Int.bmod_mul_bmod]
  simp [Nat.shiftLeft_eq]

/-- Negation commutes with the shift, so the signed construction is the modular product (40_int_conversion.md R60). -/
theorem signedToFixed_eq_word (x : Word) : signedToFixed x = word (x.toInt * 2 ^ 24) := by
  rw [← lsl64_eq_word, signedToFixed_eq_ite, lsl64]
  split
  · rw [BitVec.shiftLeft_eq_mul_twoPow, BitVec.neg_mul, BitVec.neg_neg, BitVec.shiftLeft_eq_mul_twoPow]
  · rfl

/-- The signed construction is exact on -2^39 .. 2^39 - 1 (40_int_conversion.md R54). -/
theorem signedToFixed_toInt {x : Word} (hlo : -2 ^ 39 ≤ x.toInt) (hhi : x.toInt ≤ 2 ^ 39 - 1) :
    (signedToFixed x).toInt = x.toInt * 2 ^ 24 := by
  rw [signedToFixed_eq_word]
  exact word_toInt_of_fits ((fitsWord_iff _).2 (by omega))

/-- A sign-extended operand of at most 40 bits lies in the exact range of the signed construction. -/
theorem signedToFixed_sext_toInt {n : Nat} (hn : n ≤ 40) (a : Word) :
    (signedToFixed (sext n a)).toInt = (a.setWidth n).toInt * 2 ^ 24 := by
  have hpow : (2 : Int) ^ n ≤ 2 ^ 40 := pow_le_pow_right₀ (by norm_num) hn
  have hlo := BitVec.le_two_mul_toInt (x := a.setWidth n)
  have hhi := BitVec.two_mul_toInt_lt (x := a.setWidth n)
  have hsext := sext_toInt n (by omega) a
  rw [signedToFixed_toInt (by omega) (by omega), hsext]

/-- The unsigned construction keeps the low 40 bits of its operand; the others are lost (40_int_conversion.md R55, R59). -/
theorem unsignedToFixed_toNat (x : Word) : (unsignedToFixed x).toNat = x.toNat % 2 ^ 40 * 2 ^ 24 := by
  have hshift : (unsignedToFixed x).toNat = x.toNat * 2 ^ 24 % 2 ^ 64 := lsl64_toNat x 24
  omega

/-- The unsigned construction is exact precisely up to 2^39 - 1 (40_int_conversion.md R59). -/
theorem unsignedToFixed_toInt_eq_iff (x : Word) :
    (unsignedToFixed x).toInt = x.toNat * 2 ^ 24 ↔ x.toNat ≤ 2 ^ 39 - 1 := by
  have hnat := unsignedToFixed_toNat x
  rw [BitVec.toInt_eq_toNat_cond]
  split <;> omega

/-- A zero-extended operand of at most 39 bits lies in the exact range of the unsigned construction. -/
theorem unsignedToFixed_zext_toInt {n : Nat} (hn : n ≤ 39) (a : Word) :
    (unsignedToFixed (zext n a)).toInt = (a.toNat % 2 ^ n : Nat) * 2 ^ 24 := by
  have hpow : 2 ^ n ≤ 2 ^ 39 := Nat.pow_le_pow_right (by norm_num) hn
  have hmod : a.toNat % 2 ^ n < 2 ^ n := Nat.mod_lt _ (by positivity)
  have hzext := zext_toNat n (by omega) a
  rw [(unsignedToFixed_toInt_eq_iff _).2 (by omega), hzext]

/-- From 2^39 to 2^40 - 1 the word reads negative (40_int_conversion.md R59). -/
theorem unsignedToFixed_toInt_neg {x : Word} (hlo : 2 ^ 39 ≤ x.toNat) (hhi : x.toNat ≤ 2 ^ 40 - 1) :
    (unsignedToFixed x).toInt < 0 := by
  have hnat := unsignedToFixed_toNat x
  rw [BitVec.toInt_eq_toNat_cond]
  split <;> omega

/-- What O14 says of each narrow signed operation, for an operand of `n` bits. -/
theorem exec_narrowSigned {i : Instr} {n : Nat} (hn : n ≤ 40)
    (hi : exec i = transact (fun a _ => signedToFixed (sext n a)))
    (op : OpCode) (a b : Word) (rest : List Request) (r0 : Option Word) :
    let x : Word := (a.setWidth n).signExtend 64
    let r : Word := if x.msb then -((-x) <<< 24) else x <<< 24
    exec i ⟨⟨op, a, b⟩ :: rest, r0⟩ = .next ⟨rest, some r⟩ ∧ r.toInt = (a.setWidth n).toInt * 2 ^ 24 := by
  intro x r
  have hr : r = signedToFixed (sext n a) := (signedToFixed_eq_ite x).symm
  rw [hi, transact_cons, hr]
  exact ⟨rfl, signedToFixed_sext_toInt hn a⟩

/-- What O16 says of each narrow unsigned operation, for an operand of `n` bits. -/
theorem exec_narrowUnsigned {i : Instr} {n : Nat} (hn : n ≤ 39)
    (hi : exec i = transact (fun a _ => unsignedToFixed (zext n a)))
    (op : OpCode) (a b : Word) (rest : List Request) (r0 : Option Word) :
    let r : Word := ((a.setWidth n).setWidth 64) <<< 24
    exec i ⟨⟨op, a, b⟩ :: rest, r0⟩ = .next ⟨rest, some r⟩ ∧ r.toInt = (a.toNat % 2 ^ n : Nat) * 2 ^ 24 := by
  intro r
  have hr : r = unsignedToFixed (zext n a) := rfl
  rw [hi, transact_cons, hr]
  exact ⟨rfl, unsignedToFixed_zext_toInt hn a⟩

/-- Settles O14: a sign-extended operand of at most 32 bits lies in the range where the signed construction is exact. -/
theorem narrowSignedIntegersConvertExactly : Obligations.NarrowSignedIntegersConvertExactly := by
  refine ⟨by decide, by decide, by decide, fun op a b rest r0 => ⟨?_, ?_, ?_⟩,
    by decide, by decide, by decide, by decide, by decide⟩
  · exact exec_narrowSigned (by norm_num) exec_i2xS8 op a b rest r0
  · exact exec_narrowSigned (by norm_num) exec_i2xS16 op a b rest r0
  · exact exec_narrowSigned (by norm_num) exec_i2xS32 op a b rest r0

/-- Settles O15: the signed construction is the product with 2^24 modulo 2^64, which fits a word from -2^39 to 2^39 - 1. -/
theorem signedWordConvertsExactlyOrWraps : Obligations.SignedWordConvertsExactlyOrWraps := by
  refine ⟨by decide, fun op a b rest r0 => ?_, by decide, by decide, by decide, by decide, by decide⟩
  intro r
  have hr : r = signedToFixed a := (signedToFixed_eq_ite a).symm
  rw [exec_i2xS64, transact_cons, hr]
  exact ⟨rfl, fun ⟨hlo, hhi⟩ => signedToFixed_toInt hlo hhi, signedToFixed_eq_word a⟩

/-- Settles O16: a zero-extended operand of at most 32 bits lies in the range where the unsigned construction is exact. -/
theorem narrowUnsignedIntegersConvertExactly : Obligations.NarrowUnsignedIntegersConvertExactly := by
  refine ⟨by decide, by decide, by decide, fun op a b rest r0 => ⟨?_, ?_, ?_⟩,
    by decide, by decide, by decide, by decide⟩
  · exact exec_narrowUnsigned (by norm_num) exec_i2xU8 op a b rest r0
  · exact exec_narrowUnsigned (by norm_num) exec_i2xU16 op a b rest r0
  · exact exec_narrowUnsigned (by norm_num) exec_i2xU32 op a b rest r0

/-- Settles O17: the shift keeps the low 40 bits of the operand, and bit 39 becomes the sign. -/
theorem unsignedWordConvertsExactlyOrWraps : Obligations.UnsignedWordConvertsExactlyOrWraps := by
  refine ⟨by decide, fun op a b rest r0 => ?_, by decide, by decide, by decide, by decide⟩
  intro r
  have hr : r = unsignedToFixed a := rfl
  rw [exec_i2xU64, transact_cons, hr]
  refine ⟨rfl, unsignedToFixed_toInt_eq_iff a,
    fun ⟨hlo, hhi⟩ => ⟨?_, unsignedToFixed_toInt_neg hlo hhi⟩, fun _ => ?_⟩
  · rw [unsignedToFixed_toNat, Nat.mod_eq_of_lt (by omega)]
  · exact unsignedToFixed_toNat a

end Sys2Proof.Machine
end

section
namespace Sys2Proof.Machine

/-! Truncation of rationals, and the dyadic carrier of the model read as a rational (00_scope.md section 6.2,
41_float_conversion.md R66, R67). -/

/-- The rational a dyadic stands for. -/
def Dyadic.toRat (d : Dyadic) : ℚ := (if d.neg then -1 else 1) * d.sig * (2 : ℚ) ^ d.exp

theorem abs_toRat (d : Dyadic) : |d.toRat| = d.sig * (2 : ℚ) ^ d.exp := by
  have hpos : (0 : ℚ) ≤ d.sig * (2 : ℚ) ^ d.exp := by positivity
  unfold Dyadic.toRat
  split <;> simp [abs_of_nonneg hpos]

theorem toRat_scale (d : Dyadic) (k : ℤ) : (d.scale k).toRat = d.toRat * (2 : ℚ) ^ k := by
  rw [Dyadic.toRat, Dyadic.toRat, Dyadic.scale, zpow_add₀ two_ne_zero, mul_assoc _ _ ((2 : ℚ) ^ k)]

theorem truncRat_neg (q : ℚ) : truncRat (-q) = -truncRat q := by
  unfold truncRat
  rcases lt_trichotomy q 0 with hq | rfl | hq
  · rw [if_pos (by linarith), if_neg (by linarith), Int.floor_neg]
  · simp
  · rw [if_neg (by linarith), if_pos hq.le, Int.ceil_neg]

theorem truncRat_intCast (n : ℤ) : truncRat n = n := by
  unfold truncRat
  split <;> simp

/-- A truncation never has the larger magnitude. -/
theorem abs_truncRat_le (q : ℚ) : |(truncRat q : ℚ)| ≤ |q| := by
  unfold truncRat
  split
  next hq =>
    rw [abs_of_nonneg hq, abs_of_nonneg (by exact_mod_cast Int.floor_nonneg.2 hq)]
    exact Int.floor_le q
  next hq =>
    have hceil : (⌈q⌉ : ℚ) ≤ 0 := by exact_mod_cast Int.ceil_nonpos.2 (not_le.1 hq).le
    rw [abs_of_nonpos hceil, abs_of_neg (not_le.1 hq)]
    linarith [Int.le_ceil q]

/-- A truncation falls short by less than one. -/
theorem abs_lt_abs_truncRat_add_one (q : ℚ) : |q| < |(truncRat q : ℚ)| + 1 := by
  unfold truncRat
  split
  next hq =>
    rw [abs_of_nonneg hq]
    linarith [Int.lt_floor_add_one q, le_abs_self (⌊q⌋ : ℚ)]
  next hq =>
    rw [abs_of_neg (not_le.1 hq)]
    linarith [Int.ceil_lt_add_one q, neg_le_abs (⌈q⌉ : ℚ)]

theorem truncRat_eq_zero {q : ℚ} (hq : |q| < 1) : truncRat q = 0 := by
  have habs : |truncRat q| < 1 := by exact_mod_cast (abs_truncRat_le q).trans_lt hq
  exact Int.abs_lt_one_iff.1 habs

/-- What truncates to an integer of the container is below 2^64 in magnitude. -/
theorem abs_lt_of_fitsWord_truncRat {q : ℚ} (h : fitsWord (truncRat q) = true) : |q| < 2 ^ 64 := by
  obtain ⟨hlo, hhi⟩ := (fitsWord_iff _).1 h
  have habs : |truncRat q| ≤ 2 ^ 63 := abs_le.2 ⟨hlo, by omega⟩
  have habs' : |(truncRat q : ℚ)| ≤ 2 ^ 63 := by exact_mod_cast habs
  linarith [abs_lt_abs_truncRat_add_one q]

/-- The shifts of the model are the floor of the scaled significand. -/
theorem truncRat_natCast_mul_two_zpow (n : ℕ) (e : ℤ) :
    truncRat (n * (2 : ℚ) ^ e) = (if 0 ≤ e then n <<< e.toNat else n >>> (-e).toNat : ℕ) := by
  split
  next he =>
    obtain ⟨k, rfl⟩ := Int.eq_ofNat_of_zero_le he
    rw [Int.toNat_natCast, Nat.shiftLeft_eq, zpow_natCast]
    exact_mod_cast truncRat_intCast (n * 2 ^ k : ℕ)
  next he =>
    obtain ⟨k, hk⟩ := Int.eq_ofNat_of_zero_le (by omega : 0 ≤ -e)
    obtain rfl : e = -k := by omega
    rw [neg_neg, Int.toNat_natCast, Nat.shiftRight_eq_div_pow, zpow_neg, zpow_natCast, ← div_eq_mul_inv,
      truncRat, if_pos (by positivity)]
    exact_mod_cast Rat.floor_natCast_div_natCast n (2 ^ k)

/-- The integer truncation of the model is the truncation of the rational (log 16). -/
theorem truncRat_toRat (d : Dyadic) : truncRat d.toRat = d.trunc := by
  have hmag := truncRat_natCast_mul_two_zpow d.sig d.exp
  unfold Dyadic.toRat Dyadic.trunc
  split
  · rw [mul_assoc, neg_one_mul, truncRat_neg, hmag]
  · rw [one_mul, hmag]

theorem truncRat_toRat_of_exp_nonneg {d : Dyadic} (h : 0 ≤ d.exp) :
    (truncRat d.toRat : ℚ) = d.toRat := by
  obtain ⟨k, hk⟩ := Int.eq_ofNat_of_zero_le h
  rw [truncRat_toRat, Dyadic.trunc, Dyadic.toRat, if_pos h, hk, Int.toNat_natCast, Nat.shiftLeft_eq, zpow_natCast]
  split <;> push_cast <;> ring

end Sys2Proof.Machine
end

section
namespace Sys2Proof.Machine

/-! The value of a float pattern (41_float_conversion.md R66). -/

theorem fvalRat_eq_toRat (f : FloatFormat) (v : Word) :
    fvalRat f v = (fvalDyadic f (floatFields f v)).toRat := by
  unfold fvalRat Dyadic.toRat fvalDyadic
  by_cases he : (floatFields f v).e = 0 <;> simp [he]

/-- The exact product with 2^24 (41_float_conversion.md R67). -/
theorem fvalRat_scaled (f : FloatFormat) (v : Word) :
    fvalRat f v * 2 ^ 24 = ((fvalDyadic f (floatFields f v)).scale 24).toRat := by
  rw [toRat_scale, fvalRat_eq_toRat]
  norm_cast

/-- On a normal pattern, adding 24 in the exponent field is the product with 2^24. -/
theorem fvalDyadic_raised {f : FloatFormat} {x : FloatFields} (he : x.e ≠ 0) :
    fvalDyadic f ⟨x.sign, x.e + 24, x.frac⟩ = (fvalDyadic f x).scale 24 := by
  simp [fvalDyadic, Dyadic.scale, he]
  ring

/-- The value of a packed normal pattern. -/
theorem fvalRat_packFloat {f : FloatFormat} {s : Bool} {e fr : Nat} (hpos : e ≠ 0) (he : e < 2 ^ expBits f)
    (hfr : fr < 2 ^ fracBits f) :
    fvalRat f (packFloat f ⟨s, e, fr⟩) =
      Dyadic.toRat ⟨s, 2 ^ fracBits f + fr, (e : ℤ) - bias f - fracBits f⟩ := by
  rw [fvalRat_eq_toRat, floatFields_packFloat he hfr]
  simp [fvalDyadic, hpos]

/-- A pattern with exponent field `e` lies below the binade above `e`; zeros and subnormals do too. -/
theorem abs_fvalRat_lt (f : FloatFormat) (v : Word) :
    |fvalRat f v| < (2 : ℚ) ^ ((floatFields f v).e + 1 - bias f : ℤ) := by
  have hfrac := floatFields_frac_lt f v
  rw [fvalRat_eq_toRat, abs_toRat]
  unfold fvalDyadic
  split
  next he =>
    have hsplit : ((floatFields f v).e + 1 - bias f : ℤ) = fracBits f + (1 - bias f - fracBits f) := by omega
    rw [hsplit, zpow_add₀ two_ne_zero, zpow_natCast]
    exact mul_lt_mul_of_pos_right (by exact_mod_cast hfrac) (by positivity)
  next he =>
    have hsplit : ((floatFields f v).e + 1 - bias f : ℤ) =
        (fracBits f + 1 : ℕ) + ((floatFields f v).e - bias f - fracBits f) := by push_cast; ring
    rw [hsplit, zpow_add₀ two_ne_zero, zpow_natCast]
    refine mul_lt_mul_of_pos_right ?_ (by positivity)
    exact_mod_cast (by omega : 2 ^ fracBits f + (floatFields f v).frac < 2 ^ (fracBits f + 1))

/-- A normal pattern reaches the power of two of its exponent field. -/
theorem le_abs_fvalRat {f : FloatFormat} {v : Word} (he : (floatFields f v).e ≠ 0) :
    (2 : ℚ) ^ ((floatFields f v).e - bias f : ℤ) ≤ |fvalRat f v| := by
  have hsplit : ((floatFields f v).e - bias f : ℤ) =
      fracBits f + ((floatFields f v).e - bias f - fracBits f) := by ring
  rw [fvalRat_eq_toRat, abs_toRat, hsplit, zpow_add₀ two_ne_zero, zpow_natCast]
  simp only [fvalDyadic, if_neg he]
  refine mul_le_mul_of_nonneg_right ?_ (by positivity)
  exact_mod_cast Nat.le_add_right _ _

/-- A pattern with a zero exponent field scales to less than one unit (41_float_conversion.md R69, R70). -/
theorem truncRat_fvalRat_of_e_zero {f : FloatFormat} {v : Word} (he : (floatFields f v).e = 0) :
    truncRat (fvalRat f v * 2 ^ 24) = 0 := by
  have hlt := abs_fvalRat_lt f v
  refine truncRat_eq_zero ?_
  rw [abs_mul]
  rw [he] at hlt
  have hle : (2 : ℚ) ^ ((0 : ℕ) + 1 - bias f : ℤ) ≤ 2 ^ (-24 : ℤ) :=
    zpow_le_zpow_right₀ one_le_two (by cases f <;> simp [bias])
  norm_num at hle hlt ⊢
  linarith

/-- A scaled value is an integer once the exponent field reaches `B + P - 24`. -/
theorem truncRat_fvalRat_of_le_e {f : FloatFormat} {v : Word}
    (he : bias f + fracBits f ≤ (floatFields f v).e + 24) :
    (truncRat (fvalRat f v * 2 ^ 24) : ℚ) = fvalRat f v * 2 ^ 24 := by
  rw [fvalRat_scaled]
  refine truncRat_toRat_of_exp_nonneg ?_
  simp only [Dyadic.scale, fvalDyadic]
  split <;> omega

end Sys2Proof.Machine
end

section
namespace Sys2Proof.Machine

/-! F2X on the exact scaled value, on both paths (41_float_conversion.md R67 to R71). -/

/-- The generic path truncates the exact scaled value (41_float_conversion.md R67). -/
theorem f2xGeneric_eq (f : FloatFormat) (v : Word) :
    f2xGeneric f v = wordOrInvalid f v (truncRat (fvalRat f v * 2 ^ 24)) := by
  rw [fvalRat_scaled, truncRat_toRat]
  rfl

/-- Adding 24 in the exponent field scales the value, but for a zero or subnormal pattern, which then stays below one unit
(41_float_conversion.md R71). -/
theorem truncRat_fvalRat_raised {f : FloatFormat} {v : Word}
    (h : (floatFields f v).e + 24 < expAllOnes f) :
    truncRat (fvalRat f (packFloat f ⟨(floatFields f v).sign, (floatFields f v).e + 24, (floatFields f v).frac⟩)) =
      truncRat (fvalRat f v * 2 ^ 24) := by
  have hbits : (floatFields f v).e + 24 < 2 ^ expBits f := h.trans (by cases f <;> decide)
  have hfields := floatFields_packFloat
    (x := ⟨(floatFields f v).sign, (floatFields f v).e + 24, (floatFields f v).frac⟩) hbits (floatFields_frac_lt f v)
  by_cases he : (floatFields f v).e = 0
  · rw [truncRat_fvalRat_of_e_zero he]
    refine truncRat_eq_zero ((abs_fvalRat_lt _ _).trans_le ?_)
    rw [hfields]
    exact zpow_le_one_of_nonpos₀ one_le_two (by cases f <;> simp [he, bias])
  · rw [fvalRat_eq_toRat, hfields, fvalDyadic_raised he, ← fvalRat_scaled]

/-- An exponent field that adding 24 takes to the all-ones value belongs to a value out of range (41_float_conversion.md
R71). -/
theorem fitsWord_truncRat_eq_false {f : FloatFormat} {v : Word}
    (h : expAllOnes f ≤ (floatFields f v).e + 24) :
    fitsWord (truncRat (fvalRat f v * 2 ^ 24)) = false := by
  rw [Bool.eq_false_iff]
  intro hfits
  have hlt := abs_lt_of_fitsWord_truncRat hfits
  have hexp : (40 : ℤ) ≤ (floatFields f v).e - bias f := by cases f <;> simp [bias, expAllOnes] at h ⊢ <;> omega
  have hle : (2 : ℚ) ^ (40 : ℤ) ≤ |fvalRat f v| :=
    (zpow_le_zpow_right₀ one_le_two hexp).trans (le_abs_fvalRat (by omega))
  rw [abs_mul] at hlt
  norm_num at hlt hle
  linarith

/-- The fast path gives the word of the generic one (41_float_conversion.md section 2). -/
theorem f2xFast_eq_f2xGeneric (f : FloatFormat) (v : Word) : f2xFast f v = f2xGeneric f v := by
  rw [f2xGeneric_eq]
  simp only [f2xFast]
  split
  next h => rw [← truncRat_toRat, ← fvalRat_eq_toRat, truncRat_fvalRat_raised h]
  next h => rw [wordOrInvalid, fitsWord_truncRat_eq_false (not_lt.1 h)]; rfl

/-- F2X of a finite pattern, on either path: the exact scaled value, truncated (41_float_conversion.md R67). -/
theorem floatToFixed_of_finite {f : FloatFormat} {v : Word} (h : isFinite f (floatFields f v) = true)
    (fast : Bool) : floatToFixed fast f v = wordOrInvalid f v (truncRat (fvalRat f v * 2 ^ 24)) := by
  rw [floatToFixed, if_pos h, f2xFast_eq_f2xGeneric, ite_self, f2xGeneric_eq]

/-- F2X of an infinity or a NaN is the open value (41_float_conversion.md R68). -/
theorem floatToFixed_of_not_finite {f : FloatFormat} {v : Word} (h : isFinite f (floatFields f v) = false)
    (fast : Bool) : floatToFixed fast f v = Config.f2xInvalid f v := by
  simp [floatToFixed, h]

theorem wordOrInvalid_eq_ite (f : FloatFormat) (v : Word) (t : ℤ) :
    wordOrInvalid f v t = if -2 ^ 63 ≤ t ∧ t ≤ 2 ^ 63 - 1 then word t else Config.f2xInvalid f v := by
  simp only [wordOrInvalid, fitsWord_iff]

theorem floatOperand_f64 (a : Word) : floatOperand .f64 a = a := by
  simp [floatOperand, floatWidth, zext]

/-- What O23 and O24 say of every pattern: the open value at the all-ones exponent field, the truncation below it, and zero
for a zero or subnormal pattern. -/
theorem floatToFixed_by_exponent (fast : Bool) (f : FloatFormat) (v : Word) :
    let x := floatFields f v
    let t : ℤ := truncRat (fvalRat f v * 2 ^ 24)
    let r := floatToFixed fast f v
    (x.e = expAllOnes f → r = Config.f2xInvalid f v) ∧
    (x.e < expAllOnes f → r = if -2 ^ 63 ≤ t ∧ t ≤ 2 ^ 63 - 1 then word t else Config.f2xInvalid f v) ∧
    (x.e = 0 → r = 0#64) := by
  intro x t r
  have hword : x.e ≠ expAllOnes f → r = wordOrInvalid f v t := fun h =>
    floatToFixed_of_finite ((isFinite_iff f x).2 h) fast
  refine ⟨fun h => ?_, fun h => ?_, fun h => ?_⟩
  · refine floatToFixed_of_not_finite ?_ fast
    rwa [Bool.eq_false_iff, Ne, isFinite_iff, not_not]
  · rw [hword h.ne, wordOrInvalid_eq_ite]
  · have ht : t = 0 := truncRat_fvalRat_of_e_zero h
    rw [hword (by rw [h]; cases f <;> decide), ht]
    rfl

/-- A finite pattern below one unit in magnitude answers zero (41_float_conversion.md R69). -/
theorem floatToFixed_eq_zero {f : FloatFormat} {v : Word} (h : isFinite f (floatFields f v) = true)
    (hsmall : |fvalRat f v| < (2 : ℚ) ^ (-24 : ℤ)) (fast : Bool) : floatToFixed fast f v = 0#64 := by
  have hunit : |fvalRat f v * 2 ^ 24| < 1 := by
    rw [abs_mul]
    norm_num at hsmall ⊢
    linarith
  rw [floatToFixed_of_finite h, truncRat_eq_zero hunit]
  rfl

/-- A binary32 pattern of magnitude at least one that fits converts exactly (41_float_conversion.md R69). -/
theorem rval_floatToFixed_f32 {v : Word} (h : isFinite .f32 (floatFields .f32 v) = true)
    (hlarge : 1 ≤ |fvalRat .f32 v|) (hfits : fitsWord (truncRat (fvalRat .f32 v * 2 ^ 24)) = true) (fast : Bool) :
    rval (floatToFixed fast .f32 v) = fvalRat .f32 v := by
  have hexp : (0 : ℤ) < (floatFields .f32 v).e + 1 - bias .f32 :=
    (one_lt_zpow_iff_right₀ one_lt_two).1 (hlarge.trans_lt (abs_fvalRat_lt .f32 v))
  have hint : (truncRat (fvalRat .f32 v * 2 ^ 24) : ℚ) = fvalRat .f32 v * 2 ^ 24 :=
    truncRat_fvalRat_of_le_e (by simp [bias, fracBits] at hexp ⊢; omega)
  rw [floatToFixed_of_finite h, wordOrInvalid, if_pos hfits, rval, word_toInt_of_fits hfits, hint]
  norm_num

/-- The answer of F2X to one transaction, where the two paths agree on a word. -/
theorem ask_f2x {i : Instr} {f : FloatFormat} {v r : Word}
    (hi : exec i = transact (fun a _ => floatToFixed Config.fastFloatConv f (floatOperand f a)))
    (h : ∀ fast, floatToFixed fast f (floatOperand f v) = r) (b : Word) : ask i v b = some r := by
  rw [ask_of_transact hi, h]

/-- Settles O23: both paths truncate the exact scaled value, which is an integer for a magnitude of at least one. -/
theorem binary32ConvertsByTruncation : Obligations.Binary32ConvertsByTruncation := by
  have hask {v r : Word} (h : ∀ fast, floatToFixed fast .f32 (floatOperand .f32 v) = r) := ask_f2x exec_f2xF32 h 0#64
  refine ⟨by decide, fun op a b rest r0 => ?_, hask (by decide), hask (by decide), hask (by decide), hask (by decide),
    hask (by decide), hask (by decide), hask fun fast => ?_, hask (by decide)⟩
  · intro v x t
    obtain ⟨hinvalid, htrunc, hzero⟩ := floatToFixed_by_exponent Config.fastFloatConv .f32 v
    have hfinite : x.e < 255 → isFinite .f32 x = true := fun h => (isFinite_iff .f32 x).2 h.ne
    refine ⟨_, congrFun exec_f2xF32 _, hinvalid, htrunc, hzero, fun h hsmall => ?_, fun h hlarge hfits => ?_⟩
    · exact floatToFixed_eq_zero (hfinite h) hsmall _
    · exact rval_floatToFixed_f32 (hfinite h) hlarge ((fitsWord_iff t).2 hfits) _
  · cases fast <;> rfl

/-- Settles O24: a binary64 operand is the whole word, and both paths truncate its exact scaled value. -/
theorem binary64ConvertsByTruncation : Obligations.Binary64ConvertsByTruncation := by
  have hask {v r : Word} (h : ∀ fast, floatToFixed fast .f64 (floatOperand .f64 v) = r) := ask_f2x exec_f2xF64 h 0#64
  refine ⟨by decide, fun op a b rest r0 => ?_, hask (by decide), hask (by decide), hask (by decide), hask (by decide),
    hask (by decide), hask (by decide), hask fun fast => ?_, hask fun fast => ?_, hask (by decide)⟩
  · rw [exec_f2xF64, transact_cons, floatOperand_f64]
    exact ⟨_, rfl, floatToFixed_by_exponent Config.fastFloatConv .f64 a⟩
  · cases fast <;> rfl
  · cases fast <;> rfl

end Sys2Proof.Machine
end

section
namespace Sys2Proof.Machine

/-! The integer rounding of the model against the rational one (41_float_conversion.md R75; log 16). -/

theorem roundRat_natCast (mode : RoundingDirection) (neg : Bool) (n : ℕ) : roundRat mode neg n = n := by
  cases mode <;> simp [roundRat]

/-- Rounding `n + rem / 2^d`: the floor is `n`, and the remainder decides whether it goes up. -/
theorem roundRat_natCast_add_div (mode : RoundingDirection) (neg : Bool) (n : ℕ) {rem d : ℕ} (hrem : rem < 2 ^ d) :
    roundRat mode neg (n + rem / 2 ^ d) = (if roundsUp mode neg n rem d then n + 1 else n : ℕ) := by
  have hlt : (rem / 2 ^ d : ℚ) < 1 := (div_lt_one (by positivity)).2 (by exact_mod_cast hrem)
  have hfloor : ⌊(n + rem / 2 ^ d : ℚ)⌋ = n := by
    rw [Int.floor_natCast_add, Int.floor_eq_zero_iff.2 ⟨by positivity, hlt⟩, add_zero]
  have hceil : ⌈(n + rem / 2 ^ d : ℚ)⌉ = (if rem ≠ 0 then n + 1 else n : ℕ) := by
    split
    next h =>
      have hpos : (0 : ℚ) < rem / 2 ^ d := by positivity
      rw [Int.ceil_natCast_add, (Int.ceil_eq_iff (z := 1)).2 ⟨by simpa using hpos, by simpa using hlt.le⟩]
      rfl
    next h => simp [not_not.1 h]
  have hbelow : (rem / 2 ^ d : ℚ) < 1 / 2 ↔ 2 * rem < 2 ^ d := by
    rw [div_lt_div_iff₀ (by positivity) two_pos, one_mul, mul_comm]
    norm_cast
  have habove : 1 / 2 < (rem / 2 ^ d : ℚ) ↔ 2 ^ d < 2 * rem := by
    rw [div_lt_div_iff₀ two_pos (by positivity), one_mul, mul_comm]
    norm_cast
  cases mode
  case tiesToEven =>
    have heven : (n : ℤ) % 2 = 0 ↔ ¬ n % 2 = 1 := by omega
    simp only [roundRat, roundsUp, hfloor, Int.cast_natCast, add_sub_cancel_left, hbelow, habove, heven]
    rcases lt_trichotomy (2 * rem) (2 ^ d) with h | h | h
    · simp [h, h.ne, h.not_gt]
    · by_cases hodd : n % 2 = 1 <;> simp [h, hodd]
    · simp [h, h.not_gt]
  case towardZero => simp [roundRat, roundsUp, hfloor]
  case towardPositive => cases neg <;> simp [roundRat, roundsUp, hfloor, hceil]
  case towardNegative => cases neg <;> simp [roundRat, roundsUp, hfloor, hceil]

theorem natCast_div_two_pow (m d : ℕ) : (m : ℚ) / 2 ^ d = (m / 2 ^ d : ℕ) + (m % 2 ^ d : ℕ) / 2 ^ d := by
  rw [div_eq_iff (by positivity), add_mul, div_mul_cancel₀ _ (by positivity)]
  exact_mod_cast (Nat.div_add_mod' m (2 ^ d)).symm

/-- The significand of the model is the scaled magnitude, rounded. -/
theorem roundRat_scaled_eq_roundedSignificand (mode : RoundingDirection) (neg : Bool) (p m : ℕ) :
    roundRat mode neg (m * (2 : ℚ) ^ (p - m.log2 : ℤ)) = roundedSignificand mode neg p m := by
  unfold roundedSignificand
  split
  next h =>
    rw [← Nat.cast_sub h, zpow_natCast, Nat.shiftLeft_eq]
    exact_mod_cast roundRat_natCast mode neg (m * 2 ^ (p - m.log2))
  next h =>
    have hexp : (p - m.log2 : ℤ) = -(m.log2 - p : ℕ) := by omega
    rw [hexp, zpow_neg, zpow_natCast, ← div_eq_mul_inv, natCast_div_two_pow,
      roundRat_natCast_add_div _ _ _ (Nat.mod_lt _ (by positivity))]
    simp only [Nat.shiftRight_eq_div_pow]

/-- The binade of a scaled natural. -/
theorem log_natCast_mul_two_zpow {m : ℕ} (hm : m ≠ 0) (e : ℤ) :
    Int.log 2 (m * (2 : ℚ) ^ e) = m.log2 + e := by
  have hlo : (2 : ℚ) ^ m.log2 ≤ m := by exact_mod_cast Nat.log2_self_le hm
  have hhi : (m : ℚ) < 2 ^ (m.log2 + 1) := by exact_mod_cast Nat.lt_log2_self (n := m)
  have hpos : (0 : ℚ) < m * 2 ^ e := by positivity
  apply le_antisymm
  · rw [← Int.lt_add_one_iff, ← Int.lt_zpow_iff_log_lt one_lt_two hpos]
    have hsplit : (m.log2 + e + 1 : ℤ) = (m.log2 + 1 : ℕ) + e := by push_cast; ring
    rw [hsplit, Nat.cast_two, zpow_add₀ two_ne_zero, zpow_natCast]
    exact mul_lt_mul_of_pos_right hhi (by positivity)
  · rw [← Int.zpow_le_iff_le_log one_lt_two hpos, Nat.cast_two, zpow_add₀ two_ne_zero, zpow_natCast]
    exact mul_le_mul_of_nonneg_right hlo (by positivity)

theorem toRat_lt_zero_iff {d : Dyadic} (h : d.sig ≠ 0) : d.toRat < 0 ↔ d.neg = true := by
  have hpos : (0 : ℚ) < d.sig * (2 : ℚ) ^ d.exp := by positivity
  unfold Dyadic.toRat
  split <;> simp [*, hpos.le]

/-- The integer `fround` is the rational one (41_float_conversion.md R75). -/
theorem froundRat_toRat (f : FloatFormat) (mode : RoundingDirection) (neg : Bool) (m : ℕ) {sc : ℕ}
    (hsc : sc ≤ bias f) : froundRat f mode (Dyadic.toRat ⟨neg, m, -sc⟩) = fround f mode neg m sc := by
  by_cases hm : m = 0
  · simp [froundRat, fround, Dyadic.toRat, hm]
  have hne : Dyadic.toRat ⟨neg, m, -sc⟩ ≠ 0 := by
    rw [← abs_pos, abs_toRat]
    positivity
  have hneg : decide (Dyadic.toRat ⟨neg, m, -sc⟩ < 0) = neg := by
    rw [Bool.eq_iff_iff, decide_eq_true_iff]
    exact toRat_lt_zero_iff hm
  have hexp : (m * (2 : ℚ) ^ (-sc : ℤ)) / 2 ^ (m.log2 + -sc - fracBits f : ℤ) =
      m * 2 ^ (fracBits f - m.log2 : ℤ) := by
    rw [mul_div_assoc, ← zpow_sub₀ two_ne_zero]
    congr 2
    ring
  have he : (m.log2 + -sc + bias f : ℤ).toNat = m.log2 + bias f - sc := by omega
  have he' : (m.log2 + -sc + 1 + bias f : ℤ).toNat = m.log2 + bias f - sc + 1 := by omega
  have hfrac : (roundedSignificand mode neg (fracBits f) m - 2 ^ fracBits f : ℤ).toNat =
      roundedSignificand mode neg (fracBits f) m - 2 ^ fracBits f := by
    exact_mod_cast Int.toNat_sub (roundedSignificand mode neg (fracBits f) m) (2 ^ fracBits f)
  simp only [froundRat, fround, if_neg hne, if_neg hm, hneg, abs_toRat, log_natCast_mul_two_zpow hm, hexp,
    roundRat_scaled_eq_roundedSignificand, he, he', hfrac]
  norm_cast

end Sys2Proof.Machine
end

section
namespace Sys2Proof.Machine

/-! X2F: the pattern `fround` forms, and the two paths (41_float_conversion.md R74 to R78). -/

/-- The real number a word denotes, as sign and magnitude (10_state.md R14). -/
theorem rval_eq_toRat (a : Word) : rval a = Dyadic.toRat ⟨sgn a, uval (mag64 a), -(24 : ℕ)⟩ := by
  have hint : (a.toInt : ℚ) = (if sgn a then -1 else 1) * a.toInt.natAbs := by
    rw [sgn_eq_decide, Nat.cast_natAbs]
    rcases lt_or_ge a.toInt 0 with h | h
    · simp [h, abs_of_neg h]
    · simp [h.not_gt, abs_of_nonneg h]
  rw [Dyadic.toRat, rval, hint, uval, mag64_toNat, zpow_neg, zpow_natCast, div_eq_mul_inv]

/-- The generic path is one rounding of the exact value (41_float_conversion.md R74; decision D22). -/
theorem x2fGeneric_eq_froundRat (f : FloatFormat) (mode : RoundingDirection) (a : Word) :
    x2fGeneric mode f a = froundRat f mode (rval a) := by
  rw [rval_eq_toRat, froundRat_toRat f mode _ _ (by cases f <;> decide)]
  rfl

/-- The pattern `fround` forms from a nonzero magnitude: the exponent field counts the scale `sc` down, the fraction does not
depend on it, and the significand is the rounded one, halved where the rounding carries into the next binade. -/
theorem fround_eq_packFloat (f : FloatFormat) (mode : RoundingDirection) (neg : Bool) {m : ℕ} (hm : m ≠ 0) :
    ∃ c fr : ℕ, c ≤ 1 ∧ fr < 2 ^ fracBits f ∧
      roundedSignificand mode neg (fracBits f) m = (2 ^ fracBits f + fr) * 2 ^ c ∧
      ∀ sc ≤ bias f, fround f mode neg m sc = packFloat f ⟨neg, m.log2 + bias f - sc + c, fr⟩ := by
  have hbounds := roundedSignificand_bounds mode neg (fracBits f) hm
  by_cases hcarry : roundedSignificand mode neg (fracBits f) m = 2 ^ (fracBits f + 1)
  · refine ⟨1, 0, le_rfl, by positivity, by rw [hcarry, pow_succ, add_zero, pow_one], fun sc _ => ?_⟩
    simp [fround, hm, hcarry]
  · refine ⟨0, roundedSignificand mode neg (fracBits f) m - 2 ^ fracBits f, zero_le_one, ?_, ?_, fun sc _ => ?_⟩
    · omega
    · omega
    · simp [fround, hm, hcarry]


/-- The magnitude of a word is below 2^64, so no exponent field of X2F reaches the all-ones value. -/
theorem log2_mag64_add_bias_lt (f : FloatFormat) (a : Word) :
    (uval (mag64 a)).log2 + bias f + 1 < 2 ^ expBits f := by
  have hlog : (uval (mag64 a)).log2 ≤ 63 := by
    by_cases hm : uval (mag64 a) = 0
    · simp [hm]
    · exact Nat.lt_succ_iff.1 ((Nat.log2_lt hm).2 (mag64 a).isLt)
  cases f <;> simp [bias, expBits] <;> omega

/-- The fast path gives the pattern of the generic one, in every direction (41_float_conversion.md R78). -/
theorem x2fFast_eq_x2fGeneric (f : FloatFormat) (mode : RoundingDirection) (a : Word) :
    x2fFast mode f a = x2fGeneric mode f a := by
  by_cases hm : uval (mag64 a) = 0
  · cases f <;> simp [x2fFast, x2fGeneric, fround, floatFields, hm]
  · obtain ⟨c, fr, hc, hfr, -, hpack⟩ := fround_eq_packFloat f mode (sgn a) hm
    have hbias : 25 ≤ bias f := by cases f <;> decide
    have hexp := log2_mag64_add_bias_lt f a
    have hfields := floatFields_packFloat (x := ⟨sgn a, (uval (mag64 a)).log2 + bias f - 0 + c, fr⟩)
      (by simp only; omega) hfr
    simp only [x2fFast, x2fGeneric, hpack 0 (by omega), hpack 24 (by omega), hfields, Config.frac]
    rw [if_neg (by omega)]
    congr 2
    omega

/-- X2F on either path: the rational rounding of the exact value (41_float_conversion.md R76, R77). -/
theorem fixedToFloat_eq_x2fGeneric (fast : Bool) (mode : RoundingDirection) (f : FloatFormat) (a : Word) :
    fixedToFloat fast mode f a = x2fGeneric mode f a := by
  rw [fixedToFloat, x2fFast_eq_x2fGeneric, ite_self]

/-- A binary32 result has zeros above bit 31 (41_float_conversion.md R76). -/
theorem x2fGeneric_f32_toNat_lt (mode : RoundingDirection) (a : Word) : (x2fGeneric mode .f32 a).toNat < 2 ^ 32 := by
  by_cases hm : uval (mag64 a) = 0
  · simp [x2fGeneric, fround, hm]
  · obtain ⟨c, fr, hc, hfr, -, hpack⟩ := fround_eq_packFloat .f32 mode (sgn a) hm
    have hexp := log2_mag64_add_bias_lt .f32 a
    have hsign := (sgn a).toNat_lt
    rw [x2fGeneric, hpack 24 (by decide), packFloat_toNat _ hfr]
    · simp [floatWidth, fracBits, expBits] at hexp hfr ⊢
      omega
    · simp only
      omega

/-- A factor `2^k` of the significand is a factor of the scale. -/
theorem toRat_mul_two_pow (neg : Bool) (n k : ℕ) (e : ℤ) :
    Dyadic.toRat ⟨neg, n * 2 ^ k, e⟩ = Dyadic.toRat ⟨neg, n, e + k⟩ := by
  simp only [Dyadic.toRat, zpow_add₀ (two_ne_zero (α := ℚ)), zpow_natCast]
  push_cast
  ring

/-- The value of an X2F result: the rounded significand in the binade of the magnitude. -/
theorem fvalRat_x2fGeneric (f : FloatFormat) (mode : RoundingDirection) {a : Word} (hm : uval (mag64 a) ≠ 0) :
    fvalRat f (x2fGeneric mode f a) =
      Dyadic.toRat ⟨sgn a, roundedSignificand mode (sgn a) (fracBits f) (uval (mag64 a)),
        (uval (mag64 a)).log2 - 24 - fracBits f⟩ := by
  obtain ⟨c, fr, hc, hfr, hn, hpack⟩ := fround_eq_packFloat f mode (sgn a) hm
  have hbias : 25 ≤ bias f := by cases f <;> decide
  have hexp := log2_mag64_add_bias_lt f a
  rw [x2fGeneric, hpack 24 (by omega), fvalRat_packFloat (by omega) (by omega) hfr, hn, toRat_mul_two_pow]
  congr 2
  omega

/-- A magnitude of at most `P + 1` bits converts exactly, in every direction. -/
theorem fvalRat_x2fGeneric_of_lt (f : FloatFormat) (mode : RoundingDirection) {a : Word}
    (h : a.toInt.natAbs < 2 ^ (fracBits f + 1)) : fvalRat f (x2fGeneric mode f a) = rval a := by
  rw [← mag64_toNat] at h
  by_cases hm : uval (mag64 a) = 0
  · cases f <;> simp [rval_eq_toRat, x2fGeneric, fround, fvalRat, floatFields, Dyadic.toRat, hm]
  · have hlog : (uval (mag64 a)).log2 ≤ fracBits f := Nat.lt_succ_iff.1 ((Nat.log2_lt hm).2 h)
    rw [fvalRat_x2fGeneric f mode hm, rval_eq_toRat, roundedSignificand, if_pos hlog, Nat.shiftLeft_eq,
      toRat_mul_two_pow]
    congr 2
    omega

/-- A natural that is a significand of at most `p` bits times a power of two is one times a natural power of two. -/
theorem exists_eq_mul_two_pow {n s p : ℕ} {e : ℤ} (hs : s < 2 ^ p) (h : (n : ℚ) = s * 2 ^ e) :
    ∃ m k : ℕ, m < 2 ^ p ∧ n = m * 2 ^ k := by
  obtain ⟨k, rfl | rfl⟩ := e.eq_nat_or_neg
  · rw [zpow_natCast] at h
    exact ⟨s, k, hs, by exact_mod_cast h⟩
  · rw [zpow_neg, zpow_natCast, ← div_eq_mul_inv, eq_div_iff (by positivity)] at h
    have hmul : n * 2 ^ k = s := by exact_mod_cast h
    have hle : n ≤ n * 2 ^ k := Nat.le_mul_of_pos_right n (by positivity)
    exact ⟨n, 0, by omega, by simp⟩

/-- A word whose value a pattern has spans at most `P + 1` bits (41_float_conversion.md R76: inexact otherwise). -/
theorem exists_significand_of_fvalRat_eq {f : FloatFormat} {v a : Word} (h : fvalRat f v = rval a) :
    ∃ m k : ℕ, m < 2 ^ (fracBits f + 1) ∧ a.toInt.natAbs = m * 2 ^ k := by
  have hfrac := floatFields_frac_lt f v
  have hsig : (fvalDyadic f (floatFields f v)).sig < 2 ^ (fracBits f + 1) := by
    simp only [fvalDyadic]
    split <;> omega
  have habs := congrArg abs h
  rw [fvalRat_eq_toRat, rval_eq_toRat, abs_toRat, abs_toRat, zpow_neg, ← div_eq_mul_inv,
    eq_div_iff (by positivity), mul_assoc, ← zpow_add₀ two_ne_zero, uval, mag64_toNat] at habs
  exact exists_eq_mul_two_pow hsig habs.symm

/-- Zero-extending a binary32 result from bit 31 changes nothing (41_float_conversion.md R76). -/
theorem zext_x2fGeneric_f32 (mode : RoundingDirection) (a : Word) :
    zext 32 (x2fGeneric mode .f32 a) = x2fGeneric mode .f32 a := by
  refine BitVec.eq_of_toNat_eq ?_
  rw [zext_toNat 32 (by norm_num), Nat.mod_eq_of_lt (x2fGeneric_f32_toNat_lt mode a)]

/-- Each X2F operation is one rounding by the generic path, on either build (41_float_conversion.md R76, R77). -/
theorem exec_x2fF32_generic : exec .x2fF32 = transact (fun a _ => x2fGeneric Config.x2fRound .f32 a) := by
  simp only [exec_x2fF32, fixedToFloat_eq_x2fGeneric, zext_x2fGeneric_f32]

theorem exec_x2fF64_generic : exec .x2fF64 = transact (fun a _ => x2fGeneric Config.x2fRound .f64 a) := by
  simp only [exec_x2fF64, fixedToFloat_eq_x2fGeneric]

/-- The answer of X2F to one transaction, where every direction gives the same pattern. -/
theorem ask_x2f {i : Instr} {f : FloatFormat} {a r : Word}
    (hi : exec i = transact (fun a _ => x2fGeneric Config.x2fRound f a))
    (h : ∀ mode, x2fGeneric mode f a = r) (b : Word) : ask i a b = some r := by
  rw [ask_of_transact hi, h]

/-- Settles O27: both paths round the exact value once; a pattern that has the value of a word shows its significand. -/
theorem fixedConvertsToBinary32 : Obligations.FixedConvertsToBinary32 := by
  have hask {a r : Word} (h : ∀ mode, x2fGeneric mode .f32 a = r) := ask_x2f exec_x2fF32_generic h 0#64
  refine ⟨by decide, fun op a b rest r0 => ?_, hask fun mode => ?_, hask fun mode => ?_, by decide,
    hask fun mode => ?_⟩
  · refine ⟨_, congrFun exec_x2fF32_generic _, x2fGeneric_eq_froundRat _ _ a, x2fGeneric_f32_toNat_lt _ a,
      fun hwide hexact => ?_⟩
    obtain ⟨m, k, hm, hmag⟩ := exists_significand_of_fvalRat_eq hexact
    exact hwide m k hm hmag
  · cases mode <;> decide
  · cases mode <;> decide
  · cases mode <;> decide

/-- Settles O28: both paths round the exact value once, and a magnitude below 2^53 fits the significand. -/
theorem fixedConvertsToBinary64 : Obligations.FixedConvertsToBinary64 := by
  have hask {a r : Word} (h : ∀ mode, x2fGeneric mode .f64 a = r) := ask_x2f exec_x2fF64_generic h 0#64
  refine ⟨by decide, fun op a b rest r0 => ?_, hask fun mode => ?_, by decide, hask fun mode => ?_⟩
  · exact ⟨_, congrFun exec_x2fF64_generic _, x2fGeneric_eq_froundRat _ _ a, fvalRat_x2fGeneric_of_lt .f64 _⟩
  · cases mode <;> decide
  · cases mode <;> decide

end Sys2Proof.Machine
end

section
namespace Sys2Proof.Machine

/-! ADD and SUB as arithmetic modulo 2^64 (42_add_sub.md R81, R82). -/

theorem addWord_eq_word (a b : Word) : addWord a b = word (a.toInt + b.toInt) := by
  rw [word, BitVec.ofInt_add, BitVec.ofInt_toInt, BitVec.ofInt_toInt, addWord]

/-- The unsigned reading of the operands gives the same sum modulo 2^64 (42_add_sub.md R81). -/
theorem addWord_eq_word_toNat (a b : Word) : addWord a b = word ((a.toNat : Int) + b.toNat) := by
  simp [addWord, word, BitVec.ofInt_add]

theorem subWord_eq_word (a b : Word) : subWord a b = word (a.toInt - b.toInt) := by
  rw [word, Int.sub_eq_add_neg, BitVec.ofInt_add, BitVec.ofInt_neg, BitVec.ofInt_toInt, BitVec.ofInt_toInt,
    ← BitVec.sub_eq_add_neg, subWord]

/-- A word does not see multiples of 2^64, so it reads as the one that fits (00_scope.md section 6.2). -/
theorem word_toInt_of_fits_shifted {t : Int} (k : Int) (h : fitsWord (t + 2 ^ 64 * k) = true) :
    (word t).toInt = t + 2 ^ 64 * k := by
  have hword : word (t + 2 ^ 64 * k) = word t :=
    BitVec.eq_of_toInt_eq (by simp only [word, BitVec.toInt_ofInt]; exact Int.add_mul_bmod_self_left ..)
  rw [← hword, word_toInt_of_fits h]

/-- Above the exact range the nearest multiple of 2^64 is lost (42_add_sub.md R81, overflow wraps). -/
theorem word_toInt_of_overflow {t : Int} (hlo : 2 ^ 63 - 1 < t) (hhi : t ≤ 2 ^ 63 - 1 + 2 ^ 64) :
    (word t).toInt = t - 2 ^ 64 := by
  have h := word_toInt_of_fits_shifted (-1) ((fitsWord_iff (t + 2 ^ 64 * -1)).2 (by omega))
  omega

/-- Below the exact range the nearest multiple of 2^64 is gained (42_add_sub.md R81, overflow wraps). -/
theorem word_toInt_of_underflow {t : Int} (hlo : -2 ^ 63 - 2 ^ 64 ≤ t) (hhi : t < -2 ^ 63) :
    (word t).toInt = t + 2 ^ 64 := by
  have h := word_toInt_of_fits_shifted 1 ((fitsWord_iff (t + 2 ^ 64 * 1)).2 (by omega))
  omega

/-- Settles O34: the true sum of two words lies within 2^64 of zero, so at most one multiple of 2^64 is lost. -/
theorem addWrapsModulo : Obligations.AddWrapsModulo := by
  refine ⟨by decide, fun op a b rest r0 => ?_, by decide, by decide, by decide⟩
  intro r
  have hr : addWord a b = r := addWord_eq_word a b
  have ha := natAbs_toInt_le a
  have hb := natAbs_toInt_le b
  rw [exec_add, transact_cons, transact_cons]
  refine ⟨by rw [hr], hr ▸ addWord_eq_word_toNat a b, fun hfits => ?_, fun hover => ?_, fun hunder => ?_, ?_⟩
  · have hsum : r.toInt = a.toInt + b.toInt := word_toInt_of_fits ((fitsWord_iff _).2 hfits)
    refine ⟨hsum, ?_⟩
    rw [rval, hsum, Int.cast_add, add_div, rval, rval]
  · exact word_toInt_of_overflow hover (by omega)
  · exact word_toInt_of_underflow (by omega) hunder
  · rw [addWord_eq_word, two_mul]

/-- Settles O35: the true difference of two words lies within 2^64 of zero, and exchanging the operands negates it. -/
theorem subWrapsModulo : Obligations.SubWrapsModulo := by
  refine ⟨by decide, fun op a b rest r0 => ?_, ⟨1#64, 0#64, by decide⟩, by decide, by decide, by decide⟩
  intro r
  have hr : subWord a b = r := subWord_eq_word a b
  have ha := natAbs_toInt_le a
  have hb := natAbs_toInt_le b
  rw [exec_sub, transact_cons, transact_cons, transact_cons]
  refine ⟨by rw [hr], fun hfits => ?_, fun hover => ?_, fun hunder => ?_, ?_, ?_⟩
  · have hdiff : r.toInt = a.toInt - b.toInt := word_toInt_of_fits ((fitsWord_iff _).2 hfits)
    refine ⟨hdiff, ?_⟩
    rw [rval, hdiff, Int.cast_sub, sub_div, rval, rval]
  · exact word_toInt_of_overflow hover (by omega)
  · exact word_toInt_of_underflow (by omega) hunder
  · rw [subWord, BitVec.sub_self]
  · rw [← hr, subWord, subWord, BitVec.neg_sub, BitVec.add_comm, ← BitVec.sub_eq_add_neg]

end Sys2Proof.Machine
end

section
namespace Sys2Proof.Machine

/-! DIV by the reduced divisor: the zero test, the sentinels, and the low six bits of every other quotient
(44_divide.md R95, R96, R102). -/

/-- The zero test on the reduced divisor fires on the magnitudes of at most 255 units (44_divide.md R96). -/
theorem divisorIsZero_reducedMagnitude_iff (b : Word) :
    divisorIsZero (reducedMagnitude b) = true ↔ |b.toInt| ≤ 255 := by
  rw [divisorIsZero, beq_iff_eq, ← BitVec.toNat_inj, reducedMagnitude_toNat, Int.abs_eq_natAbs, BitVec.toNat_zero]
  omega

theorem divWord_of_small {b : Word} (h : |b.toInt| ≤ 255) (a : Word) : divWord a b = sentinel (parityFlag a b) :=
  if_pos ((divisorIsZero_reducedMagnitude_iff b).2 h)

theorem divWord_of_large {b : Word} (h : ¬ |b.toInt| ≤ 255) (a : Word) :
    divWord a b =
      applySign (parityFlag a b) (lsl64 (udiv64 (lsl64 (mag64 a) 10) (reducedMagnitude b)) 6) :=
  if_neg (mt (divisorIsZero_reducedMagnitude_iff b).1 h)

/-- The sign keeps the low six zeros that the last shift leaves (44_divide.md R95). -/
theorem applySign_lsl64_toNat_mod (p : Bool) (w : Word) : (applySign p (lsl64 w 6)).toNat % 64 = 0 := by
  have hm : (lsl64 w 6).toNat % 64 = 0 := by rw [lsl64_toNat]; omega
  cases p
  case false => exact hm
  case true => rw [applySign, if_pos rfl, neg64, BitVec.toNat_neg]; omega

/-- Every result on the path past the zero test is a multiple of 64 (44_divide.md R102). -/
theorem divWord_toNat_mod_of_large {b : Word} (h : ¬ |b.toInt| ≤ 255) (a : Word) : (divWord a b).toNat % 64 = 0 := by
  rw [divWord_of_large h]
  exact applySign_lsl64_toNat_mod _ _

theorem sentinel_eq_posSentinel_or_negSentinel (p : Bool) :
    sentinel p = Config.posSentinel ∨ sentinel p = Config.negSentinel := by
  cases p
  case false => exact .inl rfl
  case true => exact .inr rfl

/-- No sentinel word is a multiple of 64, which the minimum word would be (44_divide.md R98; decision D16). -/
theorem toNat_mod_ne_zero_of_sentinel {r : Word} (h : r = Config.posSentinel ∨ r = Config.negSentinel) :
    r.toNat % 64 ≠ 0 := by
  obtain rfl | rfl := h
  · decide
  · decide

/-- DIV saturates on exactly the divisors whose reduced magnitude is zero (44_divide.md R96, R102). -/
theorem divWord_eq_sentinel_iff (a b : Word) :
    (divWord a b = Config.posSentinel ∨ divWord a b = Config.negSentinel) ↔ |b.toInt| ≤ 255 := by
  constructor
  · intro hsentinel
    by_contra hlarge
    exact toNat_mod_ne_zero_of_sentinel hsentinel (divWord_toNat_mod_of_large hlarge a)
  · intro hsmall
    rw [divWord_of_small hsmall]
    exact sentinel_eq_posSentinel_or_negSentinel _

/-- The bound of 255 units as a bound on the real value (44_divide.md R96). -/
theorem abs_rval_lt_iff (b : Word) : |rval b| < (2 : ℚ) ^ (-16 : ℤ) ↔ |b.toInt| ≤ 255 := by
  have hscale : (2 : ℚ) ^ (-16 : ℤ) * 2 ^ 24 = (256 : ℤ) := by norm_num
  rw [rval, abs_div, abs_of_pos (by positivity : (0 : ℚ) < 2 ^ 24), div_lt_iff₀ (by positivity), hscale]
  norm_cast
  omega

/-- On the sentinel path the dividend matters only by its sign bit (44_divide.md R96). -/
theorem divWord_congr_of_small {a a' b : Word} (h : |b.toInt| ≤ 255) (hsign : a.msb = a'.msb) :
    divWord a b = divWord a' b := by
  simp only [divWord_of_small h, parityFlag, sgn, hsign]

/-- Settles O43: a zero reduced divisor answers a sentinel, and every other result is a multiple of 64, which no sentinel
is. -/
theorem divByASmallDivisorSaturates : Obligations.DivByASmallDivisorSaturates := by
  rw [Obligations.DivByASmallDivisorSaturates, exec_div]
  refine ⟨fun op a b rest r0 => ?_, abs_rval_lt_iff, fun op a a' b rest r0 hsmall hsign => ?_⟩
  · exact ⟨divWord a b, transact_cons _ _ _ _, (divWord_eq_sentinel_iff a b).symm⟩
  · rw [transact_cons, transact_cons, divWord_congr_of_small hsmall hsign]

end Sys2Proof.Machine
end

section
namespace Sys2Proof.Machine

/-! The comparisons as truth values on the words and on their signed values (45_compare.md R106 to R112). -/

/-- The word of a truth value that decides `p` (45_compare.md R106). -/
theorem truthWord_eq_ite {t : Bool} {p : Prop} [Decidable p] (h : t = true ↔ p) :
    truthWord t = if p then 1#64 else 0#64 := by
  rw [truthWord_eq]
  exact if_congr h rfl rfl

theorem truthWord_true : truthWord true = 1#64 := rfl

theorem truthWord_false : truthWord false = 0#64 := rfl

theorem truthWord_not (t : Bool) : truthWord (!t) = 1#64 - truthWord t := by
  cases t
  case false => rfl
  case true => rfl

theorem wordEq_iff (a b : Word) : wordEq a b = true ↔ a = b := beq_iff_eq

/-- Equal words are the words with equal bits (45_compare.md R107). -/
theorem wordEq_iff_getLsbD (a b : Word) :
    wordEq a b = true ↔ ∀ k : Fin 64, a.getLsbD k = b.getLsbD k := by
  rw [wordEq_iff]
  constructor
  · rintro rfl _
    rfl
  · intro hbits
    exact BitVec.eq_of_getLsbD_eq fun k hk => hbits ⟨k, hk⟩

/-- Different words differ in some bit (45_compare.md R108). -/
theorem not_wordEq_iff_getLsbD (a b : Word) :
    (!wordEq a b) = true ↔ ∃ k : Fin 64, a.getLsbD k ≠ b.getLsbD k := by
  rw [Bool.not_eq_true', Bool.eq_false_iff, ne_eq, wordEq_iff_getLsbD, not_forall]

theorem signedLt_iff (a b : Word) : signedLt a b = true ↔ a.toInt < b.toInt := decide_eq_true_iff

theorem signedLe_iff (a b : Word) : signedLe a b = true ↔ a.toInt ≤ b.toInt := decide_eq_true_iff

/-- The signed order is total (45_compare.md R110, R112). -/
theorem signedLe_eq_not_signedLt (a b : Word) : signedLe a b = !signedLt b a := by
  rw [Bool.eq_iff_iff, Bool.not_eq_true', Bool.eq_false_iff, ne_eq, signedLe_iff, signedLt_iff, not_lt]

theorem signedLt_self (a : Word) : signedLt a a = false := decide_eq_false (lt_irrefl _)

theorem signedLe_self (a : Word) : signedLe a a = true := (signedLe_iff a a).2 le_rfl

/-- The most negative word is below every other (45_compare.md R109). -/
theorem signedLt_intMin {a : Word} (h : a ≠ 0x8000000000000000#64) : signedLt 0x8000000000000000#64 a = true := by
  have hne : a.toInt ≠ (0x8000000000000000#64 : Word).toInt := mt BitVec.eq_of_toInt_eq h
  have hmin : (0x8000000000000000#64 : Word).toInt = -2 ^ 63 := by decide
  have hle : -2 ^ 63 ≤ a.toInt := a.le_toInt
  rw [signedLt_iff]
  omega

/-! What the core answers to one comparison presented alone. -/

theorem ask_cmpeq (a b : Word) : ask .cmpeq a b = some (truthWord (wordEq a b)) := ask_of_transact exec_cmpeq a b
theorem ask_cmpne (a b : Word) : ask .cmpne a b = some (truthWord (!wordEq a b)) := ask_of_transact exec_cmpne a b
theorem ask_cmplt (a b : Word) : ask .cmplt a b = some (truthWord (signedLt a b)) := ask_of_transact exec_cmplt a b
theorem ask_cmple (a b : Word) : ask .cmple a b = some (truthWord (signedLe a b)) := ask_of_transact exec_cmple a b
theorem ask_cmpgt (a b : Word) : ask .cmpgt a b = some (truthWord (signedLt b a)) := ask_of_transact exec_cmpgt a b
theorem ask_cmpge (a b : Word) : ask .cmpge a b = some (truthWord (signedLe b a)) := ask_of_transact exec_cmpge a b

/-- Settles O48: equality of words is equality of all their bits, and CMPNE answers the negated truth value. -/
theorem equalityComparesAllBits : Obligations.EqualityComparesAllBits := by
  refine ⟨by decide, by decide, fun op a b rest r0 => ⟨?_, ?_⟩, fun a b => ?_, fun a => ⟨?_, ?_⟩,
    by decide, by decide⟩
  · rw [exec_cmpeq, transact_cons, truthWord_eq_ite (wordEq_iff_getLsbD a b)]
  · rw [exec_cmpne, transact_cons, truthWord_eq_ite (not_wordEq_iff_getLsbD a b)]
  · exact ⟨_, _, ask_cmpeq a b, ask_cmpne a b, truthWord_not _⟩
  · rw [ask_cmpeq, (wordEq_iff a a).2 rfl, truthWord_true]
  · have hne : a ≠ a ^^^ 1#64 := fun h =>
      absurd ((BitVec.xor_right_inj a).1 (BitVec.xor_zero.trans h)) (by decide : (0#64 : Word) ≠ 1#64)
    rw [ask_cmpeq, Bool.eq_false_iff.2 (mt (wordEq_iff a _).1 hne), truthWord_false]

/-- Settles O49: the four comparisons are the two signed orders with the operands in either order, and each order is the
negation of the other with the operands exchanged. -/
theorem orderComparesSignedValues : Obligations.OrderComparesSignedValues := by
  refine ⟨by decide, by decide, by decide, by decide, fun op a b rest r0 => ⟨?_, ?_, ?_, ?_⟩, fun a b => ?_,
    fun a => ⟨?_, ?_, ?_, ?_, fun hmin => ?_⟩, by decide, by decide, by decide, by decide, by decide⟩
  · rw [exec_cmplt, transact_cons, truthWord_eq_ite (signedLt_iff a b)]
  · rw [exec_cmple, transact_cons, truthWord_eq_ite (signedLe_iff a b)]
  · rw [exec_cmpgt, transact_cons, truthWord_eq_ite (signedLt_iff b a)]
  · rw [exec_cmpge, transact_cons, truthWord_eq_ite (signedLe_iff b a)]
  · refine ⟨_, _, _, _, ask_cmplt a b, ask_cmple a b, ask_cmpgt a b, ask_cmpge a b, ?_, ?_, ask_cmplt b a, ask_cmple b a⟩
    · rw [signedLe_eq_not_signedLt, truthWord_not]
    · rw [signedLe_eq_not_signedLt, truthWord_not]
  · rw [ask_cmplt, signedLt_self, truthWord_false]
  · rw [ask_cmple, signedLe_self, truthWord_true]
  · rw [ask_cmpgt, signedLt_self, truthWord_false]
  · rw [ask_cmpge, signedLe_self, truthWord_true]
  · rw [ask_cmplt, signedLt_intMin hmin, truthWord_true]

end Sys2Proof.Machine
end

section
namespace Sys2Proof.Machine

/-- There is no cause code, so an outcome that is a fault cannot be written down (60_exceptions.md R123; log 13). -/
theorem isEmpty_fault : IsEmpty Fault := ⟨fun x => nomatch x⟩

/-- Settles O12: the type of faults is empty, so neither a step nor an operation has a fault to end with. -/
theorem noExceptionIsEverRaised : Obligations.NoExceptionIsEverRaised := by
  refine ⟨isEmpty_fault, fun _ x => ?_, fun _ _ x => ?_⟩
  · exact isEmpty_fault.elim x
  · exact isEmpty_fault.elim x

end Sys2Proof.Machine
end

section
namespace Sys2Proof.Machine

/-! The encoding of operations and of whole transactions (30_encoding.md R37, R38, R41, R43). -/

/-- Every row of the op code table is the encoder's (30_encoding.md R41). -/
theorem encode_of_mem_opcodeTable : ∀ row ∈ opcodeTable, encode row.instr = row.code := by decide

/-- The decoder reads an operation from its own op code and from no other. -/
theorem decode_eq_op_iff {op : OpCode} {i : Instr} : decode op = .op i ↔ encode i = op := by
  constructor
  · intro h
    unfold decode at h
    split at h
    next row hrow =>
      cases h
      exact (encode_of_mem_opcodeTable row (List.mem_of_find?_eq_some hrow)).trans
        (beq_iff_eq.1 (List.find?_some hrow :))
    next => cases h
  · rintro rfl
    exact decode_encode i

/-- A reserved answer carries the code it was given (30_encoding.md R43). -/
theorem eq_of_decode_eq_reserved {op c : OpCode} (h : decode op = .reserved c) : c = op := by
  unfold decode at h
  split at h
  · cases h
  · cases h
    rfl

/-- Every operation's code passes the field check of 30_encoding.md R38. -/
theorem opDefined_encode (i : Instr) : opDefined (encode i) = true := by
  cases i <;> rfl

/-- The field check passes on the codes of the table alone, over the 256 codes. -/
theorem exists_encode_of_opDefined :
    ∀ op : OpCode, opDefined op = true → ∃ row ∈ opcodeTable, row.code = op := by decide

/-- The decoder reads an operation exactly where the fields are defined (30_encoding.md R38, R41). -/
theorem exists_decode_eq_op_iff (op : OpCode) : (∃ i : Instr, decode op = .op i) ↔ opDefined op = true := by
  simp only [decode_eq_op_iff]
  constructor
  · rintro ⟨i, rfl⟩
    exact opDefined_encode i
  · intro h
    obtain ⟨row, hmem, rfl⟩ := exists_encode_of_opDefined op h
    exact ⟨row.instr, encode_of_mem_opcodeTable row hmem⟩

/-- The decoder answers "reserved" exactly where the fields are not defined (30_encoding.md R43). -/
theorem decode_eq_reserved_iff (op : OpCode) : decode op = .reserved op ↔ opDefined op = false := by
  rw [← Bool.not_eq_true, ← exists_decode_eq_op_iff]
  cases h : decode op with
  | op i => simp
  | reserved c => simp [eq_of_decode_eq_reserved h]

/-- The codes whose fields are not defined, as ranges (30_encoding.md R43). -/
theorem opDefined_eq_false_iff : ∀ op : OpCode, opDefined op = false ↔
    ((0x08 ≤ op.toNat ∧ op.toNat ≤ 0x11) ∨ (0x14 ≤ op.toNat ∧ op.toNat ≤ 0x21) ∨
      (0x24 ≤ op.toNat ∧ op.toNat ≤ 0x31) ∨ (0x34 ≤ op.toNat ∧ op.toNat ≤ 0x3F) ∨
      (0x44 ≤ op.toNat ∧ op.toNat ≤ 0x4F) ∨ (0x56 ≤ op.toNat ∧ op.toNat ≤ 0xFF)) := by
  decide

@[simp] theorem unpackRequest_packRequest (q : Request) : unpackRequest (packRequest q) = q := by
  obtain ⟨op, a, b⟩ := q
  have hop : (op ++ a ++ b).extractLsb' 128 8 = op :=
    (BitVec.extractLsb'_append_eq_of_le (by norm_num)).trans BitVec.extractLsb'_append_eq_left
  have ha : (op ++ a ++ b).extractLsb' 64 64 = a :=
    (BitVec.extractLsb'_append_eq_of_le (by norm_num)).trans BitVec.extractLsb'_append_eq_right
  have hb : (op ++ a ++ b).extractLsb' 0 64 = b := BitVec.extractLsb'_append_eq_right
  rw [packRequest, unpackRequest, hop, ha, hb]

@[simp] theorem packRequest_unpackRequest (n : BitVec 136) : packRequest (unpackRequest n) = n := by
  have hopa : n.extractLsb' 128 8 ++ n.extractLsb' 64 64 = n.extractLsb' 64 72 :=
    BitVec.extractLsb'_append_extractLsb'_eq_extractLsb' rfl
  rw [packRequest, unpackRequest, hopa]
  exact BitVec.extractLsb'_append_extractLsb' (w := 72) (len := 64)

/-- The places of the three fields (30_encoding.md R37). -/
theorem packRequest_toNat (q : Request) :
    (packRequest q).toNat = q.op.toNat * 2 ^ 128 + q.a.toNat * 2 ^ 64 + q.b.toNat := by
  rw [packRequest, BitVec.toNat_append, BitVec.toNat_append, ← Nat.shiftLeft_add_eq_or_of_lt q.a.isLt,
    ← Nat.shiftLeft_add_eq_or_of_lt q.b.isLt]
  simp only [Nat.shiftLeft_eq]
  ring

/-- A transaction decodes to an operation exactly when its op code is the operation's. -/
theorem decodeTransaction_eq_txn_iff {n : BitVec 136} {i : Instr} {a b : Word} :
    decodeTransaction n = .txn i a b ↔ unpackRequest n = ⟨encode i, a, b⟩ := by
  constructor
  · intro h
    unfold decodeTransaction at h
    split at h
    next j hj =>
      cases h
      rw [decode_eq_op_iff.1 hj]
    next => cases h
  · intro h
    simp only [decodeTransaction, h, decode_encode]

/-- Settles O2: packing and unpacking are inverse to each other, and so are the encoder and the decoder on its codes. -/
theorem transactionEncodingRoundTrip : Obligations.TransactionEncodingRoundTrip := by
  refine ⟨fun i a b => ?_, fun n i a b h => ?_, fun i a b => packRequest_toNat _⟩
  · exact decodeTransaction_eq_txn_iff.2 (unpackRequest_packRequest _)
  · rw [encodeTransaction, ← decodeTransaction_eq_txn_iff.1 h, packRequest_unpackRequest]

/-- Settles O1: the encoder's codes, read back. -/
theorem everyOpCodeOfTheTableDecodes : Obligations.EveryOpCodeOfTheTableDecodes := by
  simp only [Obligations.EveryOpCodeOfTheTableDecodes, decode_eq_op_iff]
  exact ⟨rfl, rfl, rfl, rfl, rfl, rfl, rfl, rfl, rfl, rfl, rfl, rfl, rfl, rfl, rfl, rfl, rfl, rfl, rfl, rfl, rfl, rfl,
    rfl, rfl⟩

/-- Settles O3: the decoder follows the field check, whose refusals are the listed ranges. -/
theorem decoderRefusesExactlyTheReservedCodes : Obligations.DecoderRefusesExactlyTheReservedCodes := by
  refine ⟨fun op => ⟨?_, exists_decode_eq_op_iff op, fun c => eq_of_decode_eq_reserved⟩, by decide⟩
  rw [decode_eq_reserved_iff, opDefined_eq_false_iff]

end Sys2Proof.Machine
end

section
namespace Sys2Proof.Machine

/-! What a step does with the presented transaction, and the runs and the host's names built on it
(10_state.md R13, R19; 60_exceptions.md R126). -/

/-- Every operation answers a word that only the operands determine. -/
theorem exists_ask_eq_some (i : Instr) (a b : Word) : ∃ r : Word, ask i a b = some r := by
  obtain ⟨f, hf⟩ := exec_is_transaction i
  exact ⟨f a b, ask_of_transact hf a b⟩

/-- Everything a step can do with a presented transaction, whatever stands behind it and was answered before it. -/
theorem step_cons_cases (q : Request) :
    (opDefined q.op = true ∧ ∃ w : Word, ∀ rest r0, step ⟨q :: rest, r0⟩ = .next ⟨rest, some w⟩) ∨
    (opDefined q.op = false ∧ ∀ rest r0, step ⟨q :: rest, r0⟩ = .refused (.reservedOpCode q.op)) := by
  cases hq : opDefined q.op with
  | true =>
    obtain ⟨i, hi⟩ := (exists_decode_eq_op_iff q.op).2 hq
    obtain ⟨f, hf⟩ := exec_is_transaction i
    refine .inl ⟨rfl, f q.a q.b, fun rest r0 => ?_⟩
    rw [step_cons_op hi, hf, transact_cons]
  | false => exact .inr ⟨rfl, step_cons_reserved ((decode_eq_reserved_iff q.op).2 hq)⟩

/-- A defined transaction has one answer, in every state that presents it (10_state.md R19). -/
theorem exists_answer_of_opDefined {q : Request} (hq : opDefined q.op = true) :
    ∃ w : Word, ∀ rest r0, step ⟨q :: rest, r0⟩ = .next ⟨rest, some w⟩ := by
  rcases step_cons_cases q with ⟨-, hnext⟩ | ⟨hfalse, -⟩
  · exact hnext
  · exact absurd (hq.symm.trans hfalse) (by decide)

/-- Settles O5: the two cases of a step with a transaction presented, and the two refusals the model has by name. -/
theorem stepOutcomesAreExactlyThese : Obligations.StepOutcomesAreExactlyThese := by
  refine ⟨fun q rest r0 hq => ?_, fun q rest r0 hq => ?_, step_nil, fun s => rfl⟩
  · obtain ⟨w, hw⟩ := exists_answer_of_opDefined hq
    exact ⟨w, hw rest r0⟩
  · exact step_cons_reserved ((decode_eq_reserved_iff q.op).2 hq) rest r0

/-- Settles O4: a step with a presented transaction decodes its op code and runs the operation. -/
theorem stepRunsTheDecodedOperation : Obligations.StepRunsTheDecodedOperation := by
  intro q rest r0 i hi
  exact step_cons_op hi rest r0

/-- Settles O7: the answer and the refusal of `step_cons_cases` are chosen before the rest of the state is given. -/
theorem answerDependsOnTheRequestAlone : Obligations.AnswerDependsOnTheRequestAlone := by
  intro q rest rest' r0 r0'
  rcases step_cons_cases q with ⟨-, w, hw⟩ | ⟨-, href⟩
  · rw [hw, hw]
    refine ⟨fun t ht => ⟨w, ?_, rfl⟩, fun x hx => (nomatch hx)⟩
    cases ht
    rfl
  · rw [href, href]
    exact ⟨fun t ht => (nomatch ht), fun x hx => hx⟩

/-! Runs. -/

theorem pendingDefined_cons {q : Request} {rest : List Request} {r0 : Option Word} :
    PendingDefined ⟨q :: rest, r0⟩ ↔ opDefined q.op = true ∧ PendingDefined ⟨rest, none⟩ := by
  simp [PendingDefined, Request.wf]

/-- A run over defined transactions pairs each with its one answer (70_reset_and_hazards.md R138). -/
theorem transcript_eq_map {respond : Request → Word} {qs : List Request}
    (h : ∀ q ∈ qs, ∀ rest r0, step ⟨q :: rest, r0⟩ = .next ⟨rest, some (respond q)⟩) (r0 : Option Word) :
    transcript qs.length ⟨qs, r0⟩ = qs.map fun q => (q, some (respond q)) := by
  induction qs generalizing r0 with
  | nil => rfl
  | cons q qs ih =>
    obtain ⟨hq, hqs⟩ := List.forall_mem_cons.1 h
    simp [transcript, hq, ih hqs]

/-- Settles O8: a run is the map of the one answer over its transactions, and maps respect permutations. -/
theorem responsesDoNotDependOnTheOrder : Obligations.ResponsesDoNotDependOnTheOrder := by
  intro qs qs' r0 r0' hdef hperm
  choose! respond hrespond using fun q : Request => exists_answer_of_opDefined (q := q)
  rw [transcript_eq_map (fun q hq => hrespond q (hdef q hq)),
    transcript_eq_map (fun q hq => hrespond q (hdef q (hperm.mem_iff.2 hq)))]
  refine ⟨hperm.map _, ?_, ?_⟩
  · rw [List.map_map]
    exact List.map_id qs
  · simp

/-- A step that answers is the first of a run. -/
theorem run_succ_of_step {s s' : State} (h : step s = .next s') (n : Nat) :
    Sys2Proof.core.run (n + 1) s = Sys2Proof.core.run n s' := by
  have hcore : Sys2Proof.core.step s = .next s' := h
  simp only [Host.Core.run, hcore]

/-- `n` steps over defined transactions answer exactly the first `n`; `r` has a word if it had one or a step was made. -/
theorem run_of_pendingDefined {s : State} (hs : PendingDefined s) {n : Nat} (hn : n ≤ s.requests.length) :
    ∃ r : Option Word, Sys2Proof.core.run n s = .next ⟨s.requests.drop n, r⟩ ∧
      (s.r.isSome = true ∨ 0 < n → r.isSome = true) := by
  induction n generalizing s with
  | zero => exact ⟨s.r, rfl, by simp⟩
  | succ n ih =>
    obtain ⟨_ | ⟨q, rest⟩, r0⟩ := s
    · simp at hn
    · obtain ⟨hq, hrest⟩ := pendingDefined_cons.1 hs
      obtain ⟨w, hw⟩ := exists_answer_of_opDefined hq
      obtain ⟨r, hrun, hr⟩ := ih (s := ⟨rest, some w⟩) hrest (by simpa using hn)
      exact ⟨r, (run_succ_of_step (hw rest r0) n).trans hrun, fun _ => hr (.inl rfl)⟩

/-- Settles O9, by induction on the number of steps. -/
theorem everyPresentedTransactionIsAnswered : Obligations.EveryPresentedTransactionIsAnswered := by
  intro s hs n hn
  obtain ⟨r, hrun, hr⟩ := run_of_pendingDefined hs hn
  exact ⟨r, hrun, fun hpos => hr (.inr hpos)⟩

/-- Settles O10: a step only drops a transaction, and a defined one is always answered. -/
theorem stepKeepsEveryPendingCodeDefined : Obligations.StepKeepsEveryPendingCodeDefined := by
  refine ⟨fun s t hs ht => ?_, fun s q hs hq => ?_, fun s hs => ?_⟩
  · obtain ⟨q, rest, i, -, -, hexec⟩ := step_next ht
    obtain ⟨q', rest', w, hreq, rfl⟩ := exec_next hexec
    intro p hp
    exact hs p (hreq ▸ List.mem_cons_of_mem q' hp)
  · intro p hp
    rcases List.mem_append.1 hp with hold | hnew
    · exact hs p hold
    · obtain rfl := List.mem_singleton.1 hnew
      exact hq
  · obtain ⟨_ | ⟨q, rest⟩, r0⟩ := s
    · simp
    · obtain ⟨w, hw⟩ := exists_answer_of_opDefined (pendingDefined_cons.1 hs).1
      simp [hw]

/-- Settles O11: at reset nothing is presented, so the invariant is about no transaction, and the one presented next
runs. -/
theorem resetSetsNothingAndMeetsTheInvariant : Obligations.ResetSetsNothingAndMeetsTheInvariant := by
  refine ⟨fun q hq => (nomatch hq), reset_requests, reset_r, fun i a b => ?_⟩
  exact step_cons_encode i a b [] none

/-! The unused operand bits (30_encoding.md R39, R40). -/

/-- Operands on which the function of an operation agrees get one answer. -/
theorem exec_congr {i : Instr} {f : Word → Word → Word} (hi : exec i = transact f) {a a' b b' : Word}
    (h : f a b = f a' b') (op : OpCode) (rest : List Request) (r0 : Option Word) :
    exec i ⟨⟨op, a, b⟩ :: rest, r0⟩ = exec i ⟨⟨op, a', b'⟩ :: rest, r0⟩ := by
  rw [hi, transact_cons, transact_cons, h]

/-- The conversions are transactions that read `a` alone. -/
theorem exec_oneOperand : ∀ i ∈ [Instr.i2xS8, .i2xS16, .i2xS32, .i2xS64, .i2xU8, .i2xU16, .i2xU32, .i2xU64, .x2iS32,
    .x2iS64, .f2xF32, .f2xF64, .x2fF32, .x2fF64], ∃ g : Word → Word, exec i = transact fun a _ => g a := by
  simp only [List.forall_mem_cons, List.not_mem_nil, false_imp_iff, implies_true, and_true]
  exact ⟨⟨_, exec_i2xS8⟩, ⟨_, exec_i2xS16⟩, ⟨_, exec_i2xS32⟩, ⟨_, exec_i2xS64⟩, ⟨_, exec_i2xU8⟩, ⟨_, exec_i2xU16⟩,
    ⟨_, exec_i2xU32⟩, ⟨_, exec_i2xU64⟩, ⟨_, exec_x2iS32⟩, ⟨_, exec_x2iS64⟩, ⟨_, exec_f2xF32⟩, ⟨_, exec_f2xF64⟩,
    ⟨_, exec_x2fF32⟩, ⟨_, exec_x2fF64⟩⟩

/-- The narrow conversions read the low bits of `a` alone. -/
theorem exec_narrowOperand : ∀ p ∈ [((8 : Nat), Instr.i2xS8), (8, .i2xU8), (16, .i2xS16), (16, .i2xU16), (32, .i2xS32),
    (32, .i2xU32), (32, .f2xF32)],
    ∃ g : BitVec p.1 → Word, exec p.2 = transact fun a _ => g (a.setWidth p.1) := by
  simp only [List.forall_mem_cons, List.not_mem_nil, false_imp_iff, implies_true, and_true]
  exact ⟨⟨fun v => signedToFixed (v.signExtend 64), exec_i2xS8⟩, ⟨fun v => unsignedToFixed (v.setWidth 64), exec_i2xU8⟩,
    ⟨fun v => signedToFixed (v.signExtend 64), exec_i2xS16⟩, ⟨fun v => unsignedToFixed (v.setWidth 64), exec_i2xU16⟩,
    ⟨fun v => signedToFixed (v.signExtend 64), exec_i2xS32⟩, ⟨fun v => unsignedToFixed (v.setWidth 64), exec_i2xU32⟩,
    ⟨fun v => floatToFixed Config.fastFloatConv .f32 (v.setWidth 64), exec_f2xF32⟩⟩

/-- Settles O13: the operand assembly keeps only the bits the operation reads. -/
theorem unusedOperandBitsAreIgnored : Obligations.UnusedOperandBitsAreIgnored := by
  refine ⟨fun i hi op a b b' rest r0 => ?_, fun p hp op a a' b rest r0 hlow => ?_⟩
  · obtain ⟨g, hg⟩ := exec_oneOperand i hi
    exact exec_congr hg rfl op rest r0
  · obtain ⟨g, hg⟩ := exec_narrowOperand p hp
    have hset : a.setWidth p.1 = a'.setWidth p.1 := BitVec.eq_of_toNat_eq <| by
      rw [BitVec.toNat_setWidth, BitVec.toNat_setWidth, hlow]
    exact exec_congr hg (congrArg g hset) op rest r0

/-! The host's names (30_encoding.md R46). -/

@[simp] theorem value_name_cons_self (x : Nat) (r : Word) (env : Names) :
    (Source.name x).value ((x, r) :: env) = some r := by
  simp [Source.value]

theorem value_name_cons_of_ne {x z : Nat} (h : z ≠ x) (r : Word) (env : Names) :
    (Source.name z).value ((x, r) :: env) = (Source.name z).value env := by
  simp [Source.value, h.symm]

/-- A two-operand line whose sources have values stores the answer under its name. -/
theorem run_line {env : Names} {i : Instr} {srcA srcB : Source} {v w r : Word} (hv : srcA.value env = some v)
    (hw : srcB.value env = some w) (hr : ask i v w = some r) (x : Nat) :
    Line.run env ⟨x, i, srcA, some srcB⟩ = some ((x, r) :: env) := by
  simp [Line.run, Line.secondValue, hv, hw, hr]

/-- Settles O52: the line reads both sources before it puts the answer in front of the names. -/
theorem compoundAssignmentStoresTheAnswer : Obligations.CompoundAssignmentStoresTheAnswer := by
  intro o env x y v w hv hw
  obtain ⟨r, hr⟩ := exists_ask_eq_some o.binary.instr v w
  exact ⟨r, (x, r) :: env, hr, run_line hv hw hr x, value_name_cons_self x r env,
    fun z hz => value_name_cons_of_ne hz r env⟩

end Sys2Proof.Machine
end

section
namespace Sys2Proof.Machine

/-! The conversion to an integer, and the integer constructions as modular products (40_int_conversion.md R60 to R64). -/

/-- The number a signed magnitude below 2^63 denotes (00_scope.md section 6.2, D15). -/
theorem applySign_toInt (p : Bool) {m : Word} (hm : m.toNat < 2 ^ 63) :
    (applySign p m).toInt = if p then -(m.toNat : Int) else m.toNat := by
  rw [applySign_eq_word]
  exact word_toInt_of_fits ((fitsWord_iff _).2 (by split <;> omega))

/-- The magnitude loses its low 24 bits, under the operand's sign (40_int_conversion.md R61). -/
theorem fixedToInt_toInt (a : Word) :
    (fixedToInt a).toInt =
      if a.toInt < 0 then -((a.toInt.natAbs / 2 ^ 24 : Nat) : Int) else (a.toInt.natAbs / 2 ^ 24 : Nat) := by
  have hmag : (lsr64 (mag64 a) Config.frac).toNat = a.toInt.natAbs / 2 ^ 24 := by rw [lsr64_toNat, mag64_toNat]
  have hle := natAbs_toInt_le a
  rw [fixedToInt, applySign_toInt _ (by omega), hmag, sgn_eq_decide]
  simp only [decide_eq_true_eq]

theorem fixedToInt_bounds (a : Word) : -2 ^ 39 ≤ (fixedToInt a).toInt ∧ (fixedToInt a).toInt ≤ 2 ^ 39 - 1 := by
  have hlo := a.le_toInt
  have hhi := a.toInt_lt
  rw [fixedToInt_toInt]
  split <;> omega

/-- The conversion truncates the real value toward zero (40_int_conversion.md R61). -/
theorem fixedToInt_toInt_eq_truncRat (a : Word) : (fixedToInt a).toInt = truncRat (rval a) := by
  rw [fixedToInt_toInt, rval_eq_toRat, truncRat_toRat, Dyadic.trunc, sgn_eq_decide, uval, mag64_toNat]
  simp [Nat.shiftRight_eq_div_pow]

/-- Truncated division on sign and magnitude. -/
theorem tdiv_natCast_eq_ite (n : Int) (k : Nat) :
    n.tdiv k = if n < 0 then -((n.natAbs / k : Nat) : Int) else (n.natAbs / k : Nat) := by
  split
  next h =>
    obtain ⟨m, hm⟩ := Int.eq_ofNat_of_zero_le (a := -n) (by omega)
    obtain rfl : n = -m := by omega
    rw [Int.neg_tdiv, Int.natAbs_neg]
    rfl
  next h =>
    obtain ⟨m, rfl⟩ := Int.eq_ofNat_of_zero_le (not_lt.1 h)
    rfl

theorem fixedToInt_toInt_eq_tdiv (a : Word) : (fixedToInt a).toInt = a.toInt.tdiv (2 ^ 24) := by
  rw [fixedToInt_toInt]
  exact (tdiv_natCast_eq_ite a.toInt (2 ^ 24)).symm

/-- A number of 32 bits is its own sign extension (40_int_conversion.md R62). -/
theorem sext_32_eq_self {v : Word} (hlo : -2 ^ 31 ≤ v.toInt) (hhi : v.toInt ≤ 2 ^ 31 - 1) : sext 32 v = v := by
  have hlow : (v.toNat : Int).bmod (2 ^ 32) = v.toInt.bmod (2 ^ 32) := by
    rw [BitVec.toInt_eq_toNat_bmod, Int.bmod_bmod_of_dvd (by norm_num)]
  refine BitVec.eq_of_toInt_eq ?_
  rw [sext_toInt 32 (by norm_num), BitVec.toInt_setWidth, hlow,
    Int.bmod_eq_of_le_mul_two (by push_cast; omega) (by push_cast; omega)]

/-- The conversion to an integer written out on the word (40_int_conversion.md R61). -/
theorem fixedToInt_eq_ite (a : Word) : fixedToInt a = if a.msb then -((-a) >>> 24) else a >>> 24 := by
  unfold fixedToInt applySign mag64 sgn
  split
  · rfl
  · rfl

/-- Settles O18: the shifted magnitude has 40 bits, and a number of 32 bits is its own sign extension. -/
theorem fixedConvertsToSignedIntegers : Obligations.FixedConvertsToSignedIntegers := by
  refine ⟨by decide, by decide, fun op a b rest r0 => ?_, by decide, by decide, by decide, by decide, by decide, by decide,
    by decide⟩
  intro v
  have hv : v = fixedToInt a := (fixedToInt_eq_ite a).symm
  rw [exec_x2iS64, exec_x2iS32, transact_cons, transact_cons, hv]
  refine ⟨rfl, rfl, fixedToInt_bounds a, fun ⟨hlo, hhi⟩ => ?_⟩
  exact sext_32_eq_self hlo hhi

/-- Settles O19: the quotient of the magnitude under the operand's sign is either truncation. -/
theorem integerConversionTruncatesTowardZero : Obligations.IntegerConversionTruncatesTowardZero := by
  intro op a b rest r0
  exact ⟨fixedToInt a, congrFun exec_x2iS64 _, fixedToInt_toInt_eq_truncRat a, fixedToInt_toInt_eq_tdiv a⟩

/-- The unsigned construction is the modular product too (40_int_conversion.md R60). -/
theorem unsignedToFixed_eq_word (x : Word) : unsignedToFixed x = word (x.toNat * 2 ^ 24) := by
  refine BitVec.eq_of_toNat_eq ?_
  rw [unsignedToFixed_toNat, word, BitVec.toNat_ofInt]
  omega

/-- Words do not see multiples of 2^64, so the two 64-bit constructions agree (40_int_conversion.md R60). -/
theorem signedToFixed_eq_unsignedToFixed (x : Word) : signedToFixed x = unsignedToFixed x := by
  rw [signedToFixed_eq_word, unsignedToFixed, lsl64_eq_word]

/-- A modular product with 2^24 has its low 24 bits zero. -/
theorem word_mul_two_pow_toNat_mod (n : Int) : (word (n * 2 ^ 24)).toNat % 2 ^ 24 = 0 := by
  rw [word, BitVec.toNat_ofInt]
  omega

theorem signedToFixed_sext {n : Nat} (hn : n ≤ 64) (a : Word) :
    signedToFixed (sext n a) = word ((a.setWidth n).toInt * 2 ^ 24) := by
  rw [signedToFixed_eq_word, sext_toInt n hn]

theorem unsignedToFixed_zext {n : Nat} (hn : n ≤ 64) (a : Word) :
    unsignedToFixed (zext n a) = word ((a.toNat % 2 ^ n : Nat) * 2 ^ 24) := by
  rw [unsignedToFixed_eq_word, zext_toNat n hn]

/-- Settles O20: each construction is a shift by 24 of the assembled operand, so a product modulo 2^64. -/
theorem integerConstructionIsTheModularProduct : Obligations.IntegerConstructionIsTheModularProduct := by
  intro op a b rest r0
  refine ⟨?_, ?_, ?_, ?_, ?_, ?_, ?_, ?_, ?_, word_mul_two_pow_toNat_mod⟩
  · rw [exec_i2xS8, transact_cons, signedToFixed_sext (by norm_num)]
  · rw [exec_i2xS16, transact_cons, signedToFixed_sext (by norm_num)]
  · rw [exec_i2xS32, transact_cons, signedToFixed_sext (by norm_num)]
  · rw [exec_i2xS64, transact_cons, signedToFixed_eq_word]
  · rw [exec_i2xU8, transact_cons, unsignedToFixed_zext (by norm_num)]
  · rw [exec_i2xU16, transact_cons, unsignedToFixed_zext (by norm_num)]
  · rw [exec_i2xU32, transact_cons, unsignedToFixed_zext (by norm_num)]
  · rw [exec_i2xU64, transact_cons, unsignedToFixed_eq_word]
  · rw [exec_i2xS64, exec_i2xU64, transact_cons, transact_cons, signedToFixed_eq_unsignedToFixed]

/-- An integer in the exact range of the construction comes back (40_int_conversion.md R64). -/
theorem fixedToInt_signedToFixed {x : Word} (hlo : -2 ^ 39 ≤ x.toInt) (hhi : x.toInt ≤ 2 ^ 39 - 1) :
    fixedToInt (signedToFixed x) = x := by
  refine BitVec.eq_of_toInt_eq ?_
  rw [fixedToInt_toInt_eq_tdiv, signedToFixed_toInt hlo hhi, Int.mul_tdiv_cancel _ (by norm_num)]

/-- The fraction is cleared toward zero (40_int_conversion.md R64). -/
theorem signedToFixed_fixedToInt_toInt (a : Word) :
    (signedToFixed (fixedToInt a)).toInt = a.toInt.tdiv (2 ^ 24) * 2 ^ 24 := by
  obtain ⟨hlo, hhi⟩ := fixedToInt_bounds a
  rw [signedToFixed_toInt hlo hhi, fixedToInt_toInt_eq_tdiv]

/-- Clearing the fraction changes nothing exactly when there are no fraction bits (40_int_conversion.md R64). -/
theorem signedToFixed_fixedToInt_eq_self_iff (a : Word) :
    signedToFixed (fixedToInt a) = a ↔ a.toNat % 2 ^ 24 = 0 := by
  rw [← BitVec.toInt_inj, signedToFixed_fixedToInt_toInt, ← fixedToInt_toInt_eq_tdiv, fixedToInt_toInt]
  have hcond := BitVec.toInt_eq_toNat_cond a
  split at hcond <;> split <;> omega

/-- Settles O21: the construction is exact on what the conversion answers, and the conversion on what the construction
forms in range. -/
theorem integerRoundTrips : Obligations.IntegerRoundTrips := by
  refine ⟨fun x ⟨hlo, hhi⟩ => ?_, fun x ⟨hlo, hhi⟩ => ?_, fun a => ?_⟩
  · refine ⟨_, ask_of_transact exec_i2xS64 x _, ?_⟩
    rw [ask_of_transact exec_x2iS64, fixedToInt_signedToFixed hlo hhi]
  · have hsext : sext 32 x = x := sext_32_eq_self hlo hhi
    refine ⟨_, ask_of_transact exec_i2xS32 x _, ?_⟩
    rw [ask_of_transact exec_x2iS32, hsext, fixedToInt_signedToFixed (by omega) (by omega), hsext]
  · exact ⟨_, _, ask_of_transact exec_x2iS64 a _, ask_of_transact exec_i2xS64 _ _, signedToFixed_fixedToInt_toInt a,
      signedToFixed_fixedToInt_eq_self_iff a⟩

end Sys2Proof.Machine
end

section
namespace Sys2Proof.Machine

/-! The layout of the float patterns, and which of them F2X answers by value (41_float_conversion.md R66, R68). -/

theorem floatOperand_toNat (f : FloatFormat) (a : Word) :
    (floatOperand f a).toNat = a.toNat % 2 ^ floatWidth f :=
  zext_toNat _ (by cases f <;> decide) a

theorem floatOperand_toNat_lt (f : FloatFormat) (a : Word) : (floatOperand f a).toNat < 2 ^ floatWidth f := by
  rw [floatOperand_toNat]
  exact Nat.mod_lt _ (by positivity)

/-- The sign field as a number. -/
theorem floatFields_sign_toNat (f : FloatFormat) (v : Word) :
    (floatFields f v).sign.toNat = v.toNat / 2 ^ (floatWidth f - 1) % 2 := by
  rw [floatFields, BitVec.getLsbD, Nat.toNat_testBit]

/-- Packing the fields of a pattern gives it back (41_float_conversion.md R66). -/
theorem packFloat_floatFields {f : FloatFormat} {v : Word} (hv : v.toNat < 2 ^ floatWidth f) :
    packFloat f (floatFields f v) = v := by
  refine BitVec.eq_of_toNat_eq ?_
  rw [packFloat_toNat (floatFields_e_lt f v) (floatFields_frac_lt f v), floatFields_sign_toNat]
  cases f
  case f32 =>
    simp only [floatFields, floatWidth, fracBits, expBits] at hv ⊢
    omega
  case f64 =>
    simp only [floatFields, floatWidth, fracBits, expBits] at hv ⊢
    omega

/-- A pattern is known by its fields. -/
theorem eq_of_floatFields_eq {f : FloatFormat} {v w : Word} (hv : v.toNat < 2 ^ floatWidth f)
    (hw : w.toNat < 2 ^ floatWidth f) (h : floatFields f v = floatFields f w) : v = w := by
  rw [← packFloat_floatFields hv, h, packFloat_floatFields hw]

/-- Settles O22: the fields are the bit ranges of the pattern, which they make up without gap. -/
theorem floatFieldLayout : Obligations.FloatFieldLayout := by
  refine ⟨fun a => ?_, fun a => ?_, fun f a => packFloat_floatFields (floatOperand_toNat_lt f a)⟩
  · have hv : (floatOperand .f32 a).toNat = a.toNat % 2 ^ 32 := floatOperand_toNat .f32 a
    have hsign : (floatOperand .f32 a).getLsbD 31 = a.getLsbD 31 := by simp [floatOperand, zext, floatWidth]
    simp only [floatFields, FloatFields.mk.injEq, floatWidth, fracBits, expBits, BitVec.extractLsb'_toNat,
      Nat.shiftRight_eq_div_pow, hv]
    exact ⟨hsign, by omega, by omega⟩
  · simp only [floatOperand_f64, floatFields, FloatFields.mk.injEq, floatWidth, fracBits, expBits,
      BitVec.extractLsb'_toNat, Nat.shiftRight_eq_div_pow]
    exact ⟨trivial, trivial, by omega⟩

/-- The listed patterns by their fields: every exponent field below that of 2^39, and the pattern of -2^39 itself. -/
theorem inDomainPattern_iff {f : FloatFormat} {v : Word} (hv : v.toNat < 2 ^ floatWidth f) :
    inDomainPattern f v = true ↔
      (floatFields f v).e < bias f + 39 ∨ floatFields f v = ⟨true, bias f + 39, 0⟩ := by
  cases f
  case f32 =>
    have hlast : floatFields .f32 0xD3000000#64 = ⟨true, bias .f32 + 39, 0⟩ := by decide
    rw [← hlast, inDomainPattern, Bool.or_eq_true, decide_eq_true_iff, beq_iff_eq, Nat.lt_iff_le_pred (by decide)]
    exact or_congr Iff.rfl ⟨congrArg _, eq_of_floatFields_eq hv (by decide)⟩
  case f64 =>
    have hlast : floatFields .f64 0xC260000000000000#64 = ⟨true, bias .f64 + 39, 0⟩ := by decide
    rw [← hlast, inDomainPattern, Bool.or_eq_true, decide_eq_true_iff, beq_iff_eq, Nat.lt_iff_le_pred (by decide)]
    exact or_congr Iff.rfl ⟨congrArg _, eq_of_floatFields_eq hv (by decide)⟩

/-- The rationals whose truncation fits the container. -/
theorem truncRat_fits_iff (q : ℚ) :
    (-2 ^ 63 ≤ truncRat q ∧ truncRat q ≤ 2 ^ 63 - 1) ↔ (-2 ^ 63 - 1 < q ∧ q < 2 ^ 63) := by
  unfold truncRat
  split
  next hq =>
    rw [Int.le_floor, Int.le_sub_one_iff, Int.floor_lt]
    push_cast
    exact and_congr_left' (iff_of_true (by linarith) (by linarith))
  next hq =>
    rw [Int.le_ceil_iff, Int.ceil_le]
    push_cast
    exact and_congr_right' (iff_of_true (by linarith) (by linarith))

/-- A scaled value fits exactly when the value lies strictly between -2^39 - 2^-24 and 2^39 (decision D20). -/
theorem truncRat_scaled_fits_iff (q : ℚ) :
    (-2 ^ 63 ≤ truncRat (q * 2 ^ 24) ∧ truncRat (q * 2 ^ 24) ≤ 2 ^ 63 - 1) ↔
      (-(2 : ℚ) ^ 39 - (2 : ℚ) ^ (-24 : ℤ) < q ∧ q < (2 : ℚ) ^ 39) := by
  rw [truncRat_fits_iff]
  norm_num
  exact and_congr ⟨fun h => by linarith, fun h => by linarith⟩ ⟨fun h => by linarith, fun h => by linarith⟩

/-- In the binade of 2^39 the fraction field is what the magnitude exceeds 2^39 by. -/
theorem fvalRat_of_e_eq {f : FloatFormat} {v : Word} (he : (floatFields f v).e = bias f + 39) :
    fvalRat f v = (if (floatFields f v).sign then -1 else 1) *
      (2 ^ 39 + (floatFields f v).frac * (2 : ℚ) ^ (39 - fracBits f : ℤ)) := by
  have hexp : ((floatFields f v).e - bias f - fracBits f : ℤ) = 39 - fracBits f := by omega
  have htop : (2 : ℚ) ^ fracBits f * 2 ^ (39 - fracBits f : ℤ) = 2 ^ 39 := by
    rw [← zpow_natCast, ← zpow_add₀ two_ne_zero, add_sub_cancel]
    rfl
  rw [← htop, ← hexp, ← add_mul, ← mul_assoc]
  exact if_neg (by omega)

/-- In the binade of 2^39 only -2^39 itself lies in the domain. -/
theorem sign_frac_iff_of_e_eq {f : FloatFormat} {v : Word} (he : (floatFields f v).e = bias f + 39) :
    ((floatFields f v).sign = true ∧ (floatFields f v).frac = 0) ↔
      (-(2 : ℚ) ^ 39 - (2 : ℚ) ^ (-24 : ℤ) < fvalRat f v ∧ fvalRat f v < (2 : ℚ) ^ 39) := by
  have hunit : (2 : ℚ) ^ (-24 : ℤ) ≤ 2 ^ (39 - fracBits f : ℤ) :=
    zpow_le_zpow_right₀ one_le_two (by cases f <;> simp [fracBits])
  have hunitpos : (0 : ℚ) < 2 ^ (-24 : ℤ) := by positivity
  have hpow : (0 : ℚ) < 2 ^ 39 := by positivity
  have hfrac : (0 : ℚ) ≤ (floatFields f v).frac * 2 ^ (39 - fracBits f : ℤ) := by positivity
  rw [fvalRat_of_e_eq he]
  cases (floatFields f v).sign with
  | false =>
    refine iff_of_false (fun h => Bool.noConfusion h.1) fun ⟨_, hlt⟩ => ?_
    simp only [Bool.false_eq_true, if_false, one_mul] at hlt
    linarith
  | true =>
    simp only [if_true, true_and]
    constructor
    · intro h0
      rw [h0, Nat.cast_zero, zero_mul]
      constructor <;> linarith
    · rintro ⟨hlo, -⟩
      by_contra h0
      have hone : (1 : ℚ) ≤ (floatFields f v).frac := by exact_mod_cast Nat.one_le_iff_ne_zero.2 h0
      have hstep := mul_le_mul_of_nonneg_right hone (hunitpos.le.trans hunit)
      linarith

/-- The value of a pattern lies in the interval exactly when it is one of the listed patterns. -/
theorem inDomainPattern_iff_fvalRat {f : FloatFormat} {v : Word} (hv : v.toNat < 2 ^ floatWidth f) :
    inDomainPattern f v = true ↔
      (-(2 : ℚ) ^ 39 - (2 : ℚ) ^ (-24 : ℤ) < fvalRat f v ∧ fvalRat f v < (2 : ℚ) ^ 39) := by
  have hunitpos : (0 : ℚ) < 2 ^ (-24 : ℤ) := by positivity
  rw [inDomainPattern_iff hv]
  rcases lt_trichotomy (floatFields f v).e (bias f + 39) with he | he | he
  · have hle : (2 : ℚ) ^ ((floatFields f v).e + 1 - bias f : ℤ) ≤ 2 ^ (39 : ℤ) :=
      zpow_le_zpow_right₀ one_le_two (by omega)
    obtain ⟨hlo, hhi⟩ := abs_lt.1 ((abs_fvalRat_lt f v).trans_le hle)
    refine iff_of_true (.inl he) ⟨?_, hhi⟩
    exact (sub_lt_self _ hunitpos).trans hlo
  · rw [← sign_frac_iff_of_e_eq he, or_iff_right he.not_lt]
    constructor
    · intro h
      simp [h]
    · rintro ⟨hs, hf⟩
      rw [← hs, ← hf, ← he]
  · have hle : (2 : ℚ) ^ (40 : ℤ) ≤ |fvalRat f v| :=
      (zpow_le_zpow_right₀ one_le_two (by omega)).trans (le_abs_fvalRat (by omega))
    refine iff_of_false ?_ fun ⟨hlo, hhi⟩ => ?_
    · rintro (h | h)
      · omega
      · rw [h] at he
        exact lt_irrefl _ he
    · have habs : |fvalRat f v| < 2 ^ (40 : ℤ) := by
        rw [abs_lt]
        norm_num at hlo hhi ⊢
        constructor <;> linarith
      exact habs.not_ge hle

theorem isFinite_of_inDomainPattern {f : FloatFormat} {v : Word} (hv : v.toNat < 2 ^ floatWidth f)
    (h : inDomainPattern f v = true) : isFinite f (floatFields f v) = true := by
  rw [isFinite_iff]
  rcases (inDomainPattern_iff hv).1 h with he | he
  · cases f <;> simp [bias, expAllOnes] at he ⊢ <;> omega
  · rw [he]
    cases f <;> decide

/-- Settles O25: the listed patterns and the truncations that fit are both the patterns with a value in the interval, where
no infinity or NaN lies. -/
theorem floatDomainIsTheListedPatterns : Obligations.FloatDomainIsTheListedPatterns := by
  intro f a v t
  have hv : v.toNat < 2 ^ floatWidth f := floatOperand_toNat_lt f a
  have hfits := truncRat_scaled_fits_iff (fvalRat f v)
  refine ⟨?_, fun _ => hfits⟩
  rw [hfits, inDomainPattern_iff_fvalRat hv]
  exact (and_iff_right_of_imp fun h => isFinite_of_inDomainPattern hv ((inDomainPattern_iff_fvalRat hv).2 h)).symm

end Sys2Proof.Machine
end

section
namespace Sys2Proof.Machine

/-! The bit-level extraction, the error of F2X, and the round trips (41_float_conversion.md R73, R80). -/

/-- The magnitude of a truncation; the shifts of the model as products and quotients. -/
def Dyadic.truncMag (d : Dyadic) : ℕ :=
  if 0 ≤ d.exp then d.sig * 2 ^ d.exp.toNat else d.sig / 2 ^ (-d.exp).toNat

theorem trunc_eq_truncMag (d : Dyadic) : d.trunc = if d.neg then -(d.truncMag : ℤ) else d.truncMag := by
  simp only [Dyadic.trunc, Dyadic.truncMag, Nat.shiftLeft_eq, Nat.shiftRight_eq_div_pow]

/-- A shift past the whole significand leaves nothing, so the extraction need not form it (41_float_conversion.md R73). -/
theorem truncMag_eq_zero {d : Dyadic} {p : ℕ} (hsig : d.sig < 2 ^ (p + 1)) (hneg : d.exp < 0) (hp : ¬ -d.exp ≤ p) :
    d.truncMag = 0 := by
  rw [Dyadic.truncMag, if_neg hneg.not_ge]
  exact Nat.div_eq_of_lt (hsig.trans_le (Nat.pow_le_pow_right two_pos (by omega)))

/-- The magnitude of the extraction is that of the truncation. -/
theorem extract_magnitude {d : Dyadic} {p : ℕ} (hsig : d.sig < 2 ^ (p + 1)) :
    (if 0 ≤ d.exp then d.sig * 2 ^ d.exp.toNat else if -d.exp ≤ p then d.sig / 2 ^ (-d.exp).toNat else 0) =
      d.truncMag := by
  by_cases h0 : 0 ≤ d.exp
  · rw [if_pos h0, Dyadic.truncMag, if_pos h0]
  · by_cases hp : -d.exp ≤ p
    · rw [if_neg h0, if_pos hp, Dyadic.truncMag, if_neg h0]
    · rw [if_neg h0, if_neg hp, truncMag_eq_zero hsig (not_le.1 h0) hp]

/-- The last step on a sign and a magnitude: the range test of the extraction is the range test of the integer. -/
theorem wordOrInvalid_signed (f : FloatFormat) (v : Word) (s : Bool) (m : ℕ) :
    wordOrInvalid f v (if s then -(m : ℤ) else m) =
      if m ≤ 2 ^ 63 - 1 ∨ (s = true ∧ m = 2 ^ 63) then applySign s (BitVec.ofNat 64 m)
      else Config.f2xInvalid f v := by
  have hfits : fitsWord (if s then -(m : ℤ) else m) = true ↔ m ≤ 2 ^ 63 - 1 ∨ (s = true ∧ m = 2 ^ 63) := by
    rw [fitsWord_iff]
    cases s
    · simp only [Bool.false_eq_true, if_false, false_and, or_false]
      omega
    · simp only [if_true, true_and]
      omega
  simp only [wordOrInvalid, hfits]
  split
  next h =>
    have hm : (BitVec.ofNat 64 m).toNat = m := by
      rw [BitVec.toNat_ofNat]
      omega
    rw [applySign_eq_word, hm]
  next h => rfl

/-- The bit-level extraction gives the word of the generic path (41_float_conversion.md R73). -/
theorem f2xExtract_eq_f2xGeneric (f : FloatFormat) (v : Word) : f2xExtract f v = f2xGeneric f v := by
  by_cases he : (floatFields f v).e = 0
  · rw [f2xGeneric_eq, truncRat_fvalRat_of_e_zero he]
    simp only [f2xExtract, if_pos he]
    rfl
  · have hfrac := floatFields_frac_lt f v
    have hmag := extract_magnitude (d := (fvalDyadic f (floatFields f v)).scale 24) (p := fracBits f) (by
      simp only [Dyadic.scale, fvalDyadic, if_neg he, pow_succ]
      omega)
    have hexp : ((fvalDyadic f (floatFields f v)).scale 24).exp =
        (floatFields f v).e - bias f + Config.frac - fracBits f := by
      simp only [Dyadic.scale, fvalDyadic, if_neg he, Config.frac]
      omega
    have hsig : ((fvalDyadic f (floatFields f v)).scale 24).sig = 2 ^ fracBits f + (floatFields f v).frac := if_neg he
    rw [hexp, hsig] at hmag
    simp only [f2xExtract, if_neg he, hmag]
    rw [← wordOrInvalid_signed]
    exact congrArg _ (trunc_eq_truncMag ((fvalDyadic f (floatFields f v)).scale 24)).symm

/-- Settles O26: all three forms truncate the exact scaled value and test the same range. -/
theorem floatToFixedPathsAgree : Obligations.FloatToFixedPathsAgree := by
  intro f a _
  exact ⟨f2xFast_eq_f2xGeneric f _, f2xExtract_eq_f2xGeneric f _⟩

/-- Settles O29: the integer rounding of the magnitude is the rational one, `fround_F(mode, rval a)`. -/
theorem fixedToFloatRoundsTheExactValueOnce : Obligations.FixedToFloatRoundsTheExactValueOnce :=
  x2fGeneric_eq_froundRat

/-- Settles O30: lowering the exponent field by 24 is the scale by 2^-24, since no exponent field of X2F is small. -/
theorem fixedToFloatPathsAgree : Obligations.FixedToFloatPathsAgree :=
  x2fFast_eq_x2fGeneric

/-- A significand whose discarded part is zero is not rounded, in any direction (41_float_conversion.md R75). -/
theorem roundsUp_zero (mode : RoundingDirection) (neg : Bool) (n d : ℕ) : roundsUp mode neg n 0 d = false := by
  have hpos : 0 ≠ 2 ^ d := (Nat.two_pow_pos d).ne
  cases mode <;> simp [roundsUp, hpos]

/-- A magnitude of at most `P + 1` significant bits is a multiple of what the rounding discards. -/
theorem two_pow_log2_sub_dvd {m k p n : ℕ} (hm : m < 2 ^ (p + 1)) (hn : n = m * 2 ^ k) (hn0 : n ≠ 0) :
    2 ^ (n.log2 - p) ∣ n := by
  have hlog : n.log2 < p + 1 + k := by
    rw [Nat.log2_lt hn0, hn, pow_add]
    exact mul_lt_mul_of_pos_right hm (by positivity)
  rw [hn] at hlog ⊢
  exact (pow_dvd_pow 2 (by omega)).trans (Nat.dvd_mul_left _ _)

/-- A significand that discards nothing is the magnitude, scaled (41_float_conversion.md R75). -/
theorem roundedSignificand_mul_of_dvd (mode : RoundingDirection) (neg : Bool) {p m : ℕ} (hp : p < m.log2)
    (h : 2 ^ (m.log2 - p) ∣ m) : roundedSignificand mode neg p m * 2 ^ (m.log2 - p) = m := by
  simp only [roundedSignificand, if_neg hp.not_ge, Nat.mod_eq_zero_of_dvd h, roundsUp_zero, Bool.false_eq_true,
    if_false, Nat.shiftRight_eq_div_pow]
  exact Nat.div_mul_cancel h

/-- Only the zero word has a zero magnitude. -/
theorem uval_mag64_ne_zero {a : Word} (h : a ≠ 0#64) : uval (mag64 a) ≠ 0 := by
  rw [uval, mag64_toNat, Int.natAbs_ne_zero]
  exact fun h0 => h (BitVec.eq_of_toInt_eq (h0.trans BitVec.toInt_zero.symm))

/-- A word whose magnitude spans at most `P + 1` bits converts exactly, in every direction (41_float_conversion.md
section 3). -/
theorem fvalRat_x2fGeneric_of_significand (f : FloatFormat) (mode : RoundingDirection) {a : Word} {m k : ℕ}
    (hm : m < 2 ^ (fracBits f + 1)) (ha : a.toInt.natAbs = m * 2 ^ k) : fvalRat f (x2fGeneric mode f a) = rval a := by
  rcases lt_or_ge a.toInt.natAbs (2 ^ (fracBits f + 1)) with hsmall | hlarge
  · exact fvalRat_x2fGeneric_of_lt f mode hsmall
  · rw [← mag64_toNat] at hlarge ha
    have h0 : uval (mag64 a) ≠ 0 := ((Nat.two_pow_pos _).trans_le hlarge).ne'
    have hlog : fracBits f < (uval (mag64 a)).log2 := (Nat.le_log2 h0).2 hlarge
    have hround := roundedSignificand_mul_of_dvd mode (sgn a) hlog (two_pow_log2_sub_dvd hm ha h0)
    rw [fvalRat_x2fGeneric f mode h0, rval_eq_toRat]
    conv_rhs => rw [← hround, toRat_mul_two_pow]
    congr 2
    omega

/-- The fields of a nonzero X2F result (41_float_conversion.md section 3). -/
theorem floatFields_x2fGeneric (f : FloatFormat) (mode : RoundingDirection) {a : Word} (ha : a ≠ 0#64) :
    ∃ e fr : ℕ, e ≠ 0 ∧ e ≠ expAllOnes f ∧ floatFields f (x2fGeneric mode f a) = ⟨sgn a, e, fr⟩ := by
  obtain ⟨c, fr, hc, hfr, -, hpack⟩ := fround_eq_packFloat f mode (sgn a) (uval_mag64_ne_zero ha)
  have hbias : 25 ≤ bias f := by cases f <;> decide
  have hexp := log2_mag64_add_bias_lt f a
  have hones : 2 ^ expBits f = expAllOnes f + 1 := by cases f <;> decide
  refine ⟨(uval (mag64 a)).log2 + bias f - 24 + c, fr, by omega, by omega, ?_⟩
  rw [x2fGeneric, hpack 24 (by omega), floatFields_packFloat _ hfr]
  simp only
  omega

theorem floatClass_eq_normal_iff (f : FloatFormat) (x : FloatFields) :
    floatClass f x = .normal ↔ x.e ≠ 0 ∧ x.e ≠ expAllOnes f := by
  unfold floatClass
  split_ifs with h0 hf hones hf
  · simp [h0]
  · simp [h0]
  · simp [hones]
  · simp [hones]
  · simp [h0, hones]

/-- Settles O31: the pattern is packed from a normal exponent field, and the rounding discards nothing of a magnitude
that spans at most `P + 1` bits. -/
theorem fixedToFloatResultsAreZeroOrNormal : Obligations.FixedToFloatResultsAreZeroOrNormal := by
  intro fast f mode a r
  have hr : r = x2fGeneric mode f a := fixedToFloat_eq_x2fGeneric fast mode f a
  rw [hr]
  refine ⟨fun h => ?_, fun h => ?_, fun ⟨m, k, hm, ha⟩ => fvalRat_x2fGeneric_of_significand f mode hm ha⟩
  · rw [h]
    rfl
  · obtain ⟨e, fr, he, hones, hfields⟩ := floatFields_x2fGeneric f mode h
    rw [hfields, floatClass_eq_normal_iff]
    exact ⟨⟨he, hones⟩, sgn_eq_decide a⟩

/-- F2X of a pattern in its domain: the truncated scaled value, which fits (41_float_conversion.md R67, R68). -/
theorem floatToFixed_toInt {f : FloatFormat} {v : Word} (hv : v.toNat < 2 ^ floatWidth f)
    (h : inDomainPattern f v = true) (fast : Bool) :
    (floatToFixed fast f v).toInt = truncRat (fvalRat f v * 2 ^ 24) := by
  have hfits : fitsWord (truncRat (fvalRat f v * 2 ^ 24)) = true :=
    (fitsWord_iff _).2 ((truncRat_scaled_fits_iff _).2 ((inDomainPattern_iff_fvalRat hv).1 h))
  rw [floatToFixed_of_finite (isFinite_of_inDomainPattern hv h), wordOrInvalid, if_pos hfits, word_toInt_of_fits hfits]

/-- Settles O32: the answer is the truncation of the scaled value, which falls short by less than one unit. -/
theorem floatToFixedErrorIsBelowOneUnit : Obligations.FloatToFixedErrorIsBelowOneUnit := by
  intro fast f a hdom v r
  have hr : rval r = truncRat (fvalRat f v * 2 ^ 24) / 2 ^ 24 := by
    rw [rval, floatToFixed_toInt (floatOperand_toNat_lt f a) hdom]
  have hle := abs_truncRat_le (fvalRat f v * 2 ^ 24)
  have hlt := abs_lt_abs_truncRat_add_one (fvalRat f v * 2 ^ 24)
  rw [abs_mul] at hle hlt
  rw [hr, abs_div]
  norm_num at hle hlt ⊢
  constructor <;> linarith

/-! Round trips (41_float_conversion.md R80). -/

/-- A normal pattern is known by its value. -/
theorem floatFields_eq_of_fvalRat_eq {f : FloatFormat} {v w : Word} (hv : (floatFields f v).e ≠ 0)
    (hw : (floatFields f w).e ≠ 0) (h : fvalRat f v = fvalRat f w) : floatFields f v = floatFields f w := by
  have hexp {v w : Word} (hv : (floatFields f v).e ≠ 0) (h : fvalRat f v = fvalRat f w) :
      (floatFields f v).e ≤ (floatFields f w).e := by
    have hlt := (le_abs_fvalRat hv).trans_lt (h ▸ abs_fvalRat_lt f w)
    have hint := (zpow_lt_zpow_iff_right₀ (one_lt_two (α := ℚ))).1 hlt
    omega
  have he : (floatFields f v).e = (floatFields f w).e := le_antisymm (hexp hv h) (hexp hw h.symm)
  rw [fvalRat_eq_toRat, fvalRat_eq_toRat] at h
  have hpow := Nat.two_pow_pos (fracBits f)
  have hfrac : (floatFields f v).frac = (floatFields f w).frac := by
    have habs := congrArg abs h
    rw [abs_toRat, abs_toRat] at habs
    simp only [fvalDyadic, if_neg hw, he] at habs
    have hsig := Nat.cast_injective (mul_right_cancel₀ (by positivity) habs)
    omega
  have hsign : (floatFields f v).sign = (floatFields f w).sign := by
    have hneg {x : Word} (hx : (floatFields f x).e ≠ 0) :
        (fvalDyadic f (floatFields f x)).toRat < 0 ↔ (floatFields f x).sign = true :=
      toRat_lt_zero_iff (by simp only [fvalDyadic, if_neg hx]; omega)
    rw [Bool.eq_iff_iff, ← hneg hv, ← hneg hw, h]
  exact (FloatFields.mk.injEq ..).mpr ⟨hsign, he, hfrac⟩

theorem fvalRat_eq_zero_iff (f : FloatFormat) (v : Word) :
    fvalRat f v = 0 ↔ floatClass f (floatFields f v) = .zero := by
  have hsig : fvalRat f v = 0 ↔ (fvalDyadic f (floatFields f v)).sig = 0 := by
    rw [fvalRat_eq_toRat, ← abs_eq_zero, abs_toRat, mul_eq_zero, Nat.cast_eq_zero]
    exact or_iff_left (by positivity)
  rw [hsig]
  unfold fvalDyadic floatClass
  split_ifs with h0 hf hones hf
  · simp [hf]
  · simp [hf]
  · simp
  · simp
  · simp

/-- A pattern whose scaled value is an integer is a zero or normal: a subnormal scales to less than one unit. -/
theorem e_ne_zero_of_scaled_int {f : FloatFormat} {v : Word} {n : ℤ} (hn : fvalRat f v * 2 ^ 24 = n)
    (h0 : fvalRat f v ≠ 0) : (floatFields f v).e ≠ 0 := by
  intro he
  have hzero := truncRat_fvalRat_of_e_zero he
  rw [hn, truncRat_intCast] at hzero
  rw [hzero, Int.cast_zero] at hn
  exact h0 ((mul_eq_zero_iff_right (by positivity)).1 hn)

/-- An integer that the pattern stands for, scaled, is the integer F2X answers. -/
theorem rval_floatToFixed {f : FloatFormat} {v : Word} (hv : v.toNat < 2 ^ floatWidth f)
    (h : inDomainPattern f v = true) {n : ℤ} (hn : fvalRat f v * 2 ^ 24 = n) (fast : Bool) :
    rval (floatToFixed fast f v) = fvalRat f v := by
  rw [rval, floatToFixed_toInt hv h, hn, truncRat_intCast, ← hn]
  norm_num

theorem x2fGeneric_toNat_lt (f : FloatFormat) (mode : RoundingDirection) (a : Word) :
    (x2fGeneric mode f a).toNat < 2 ^ floatWidth f := by
  cases f
  case f32 => exact x2fGeneric_f32_toNat_lt mode a
  case f64 => exact BitVec.isLt _

/-- The pattern X2F answers for a word that a normal pattern stands for is that pattern. -/
theorem x2fGeneric_eq_of_fvalRat_eq {f : FloatFormat} {v a : Word} (hv : v.toNat < 2 ^ floatWidth f)
    (he : (floatFields f v).e ≠ 0) (h : fvalRat f v = rval a) (ha : a ≠ 0#64) (mode : RoundingDirection) :
    x2fGeneric mode f a = v := by
  obtain ⟨m, k, hm, hmag⟩ := exists_significand_of_fvalRat_eq h
  have hval := (fvalRat_x2fGeneric_of_significand f mode hm hmag).trans h.symm
  obtain ⟨e, fr, he', -, hfields⟩ := floatFields_x2fGeneric f mode ha
  refine eq_of_floatFields_eq (x2fGeneric_toNat_lt f mode a) hv (floatFields_eq_of_fvalRat_eq ?_ he hval)
  rw [hfields]
  exact he'

theorem isFinite_x2fGeneric (f : FloatFormat) (mode : RoundingDirection) (a : Word) :
    isFinite f (floatFields f (x2fGeneric mode f a)) = true := by
  rw [isFinite_iff]
  by_cases ha : a = 0#64
  · rw [ha]
    cases f
    case f32 => exact (by decide : (floatFields .f32 0#64).e ≠ 255)
    case f64 => exact (by decide : (floatFields .f64 0#64).e ≠ 2047)
  · obtain ⟨e, fr, -, hones, hfields⟩ := floatFields_x2fGeneric f mode ha
    rw [hfields]
    exact hones

/-- F2X gives back a word that X2F converted exactly (41_float_conversion.md R80). -/
theorem floatToFixed_of_fvalRat_eq {f : FloatFormat} {v a : Word} (hv : isFinite f (floatFields f v) = true)
    (h : fvalRat f v = rval a) (fast : Bool) : floatToFixed fast f v = a := by
  have hscaled : rval a * 2 ^ 24 = a.toInt := div_mul_cancel₀ _ (by positivity)
  have hfits : fitsWord a.toInt = true := by
    have hlo := a.le_toInt
    have hhi := a.toInt_lt
    exact (fitsWord_iff _).2 ⟨hlo, Int.le_sub_one_of_lt hhi⟩
  rw [floatToFixed_of_finite hv, h, hscaled, truncRat_intCast, wordOrInvalid, if_pos hfits]
  exact BitVec.ofInt_toInt

/-- Settles O33: both conversions are exact on the values at hand, and a normal pattern is known by its value. -/
theorem floatRoundTrips : Obligations.FloatRoundTrips := by
  refine ⟨fun fast fast' mode f a => ?_, fun fast fast' mode a ha => ?_, by decide⟩
  · intro v hdom ⟨n, hn⟩
    have hv : v.toNat < 2 ^ floatWidth f := floatOperand_toNat_lt f a
    have hval := rval_floatToFixed hv hdom hn fast
    rw [fixedToFloat_eq_x2fGeneric]
    split
    next hclass =>
      rw [x2fGeneric_eq_froundRat, hval, (fvalRat_eq_zero_iff f v).2 hclass, froundRat, if_pos rfl]
    next hclass =>
      have h0 : fvalRat f v ≠ 0 := mt (fvalRat_eq_zero_iff f v).1 hclass
      refine x2fGeneric_eq_of_fvalRat_eq hv (e_ne_zero_of_scaled_int hn h0) hval.symm (fun hzero => h0 ?_) mode
      rw [← hval, hzero, rval, BitVec.toInt_zero, Int.cast_zero, zero_div]
  · rw [fixedToFloat_eq_x2fGeneric]
    exact floatToFixed_of_fvalRat_eq (isFinite_x2fGeneric .f64 mode a) (fvalRat_x2fGeneric_of_lt .f64 mode ha) fast

end Sys2Proof.Machine
end

section
namespace Sys2Proof.Machine

/-! The laws of ADD, SUB and the unary minus (42_add_sub.md; 46_mixed_type_and_pseudo.md R120). -/

theorem ask_add (a b : Word) : ask .add a b = some (a + b) := ask_of_transact exec_add a b
theorem ask_sub (a b : Word) : ask .sub a b = some (a - b) := ask_of_transact exec_sub a b

/-- NEG is two's complement negation (46_mixed_type_and_pseudo.md R120). -/
theorem negPseudo_eq (a : Word) : negPseudo a = some (-a) := by
  rw [negPseudo, zeroWord, ask_sub, BitVec.zero_sub]

/-- Settles O36: ADD, SUB and NEG answer the sum, the difference and the negation of bit vectors, which are a ring. -/
theorem additionLaws : Obligations.AdditionLaws := by
  refine ⟨fun a => ⟨?_, ?_, ?_⟩, fun a => ⟨-a, negPseudo_eq a, ?_, ?_⟩, fun a b => ?_,
    fun a b c => ⟨a + b, b + c, ask_add a b, ask_add b c, ?_⟩, fun a b => ⟨-b, negPseudo_eq b, ?_⟩,
    by decide, by decide, by decide, by decide⟩
  · rw [ask_add, BitVec.add_zero]
  · rw [ask_add, BitVec.zero_add]
  · rw [ask_sub, BitVec.sub_zero]
  · rw [word, BitVec.ofInt_neg, BitVec.ofInt_toInt]
  · rw [ask_add, BitVec.add_right_neg]
  · rw [ask_add, ask_add, BitVec.add_comm]
  · rw [ask_add, ask_add, BitVec.add_assoc]
  · rw [ask_sub, ask_add, BitVec.sub_eq_add_neg]

end Sys2Proof.Machine
end

section
namespace Sys2Proof.Machine

/-! The combined sign of a product or a quotient (43_multiply.md R86, 44_divide.md R95). -/

theorem parityFlag_eq_true_iff (a b : Word) : parityFlag a b = true ↔ ¬ (a.toInt < 0 ↔ b.toInt < 0) := by
  rw [parityFlag_eq, bne_iff_ne, ne_eq, decide_eq_decide]

theorem parityFlag_comm (a b : Word) : parityFlag a b = parityFlag b a := Bool.xor_comm _ _

/-- A magnitude under the combined sign, modulo 2^64. -/
theorem applySign_parityFlag (a b m : Word) :
    applySign (parityFlag a b) m = word (if a.toInt < 0 ↔ b.toInt < 0 then (m.toNat : Int) else -m.toNat) := by
  rw [applySign_eq_word]
  simp only [parityFlag_eq_true_iff, ite_not]

/-- The sentinel of the combined sign (44_divide.md R97). -/
theorem sentinel_parityFlag (a b : Word) :
    sentinel (parityFlag a b) = if a.toInt < 0 ↔ b.toInt < 0 then Config.posSentinel else Config.negSentinel := by
  simp only [sentinel, parityFlag_eq_true_iff, ite_not]

/-- The number a signed magnitude denotes: its size, and the combined sign unless it is zero. -/
theorem toInt_applySign_parityFlag (a b : Word) {m : Word} (hm : m.toNat < 2 ^ 63) :
    (applySign (parityFlag a b) m).toInt = if a.toInt < 0 ↔ b.toInt < 0 then (m.toNat : Int) else -m.toNat := by
  rw [applySign_toInt _ hm]
  simp only [parityFlag_eq_true_iff, ite_not]

theorem natAbs_applySign (p : Bool) {m : Word} (hm : m.toNat < 2 ^ 63) :
    (applySign p m).toInt.natAbs = m.toNat := by
  rw [applySign_toInt p hm]
  cases p
  · rfl
  · simp

/-- A signed magnitude is zero when the magnitude is, and carries the combined sign otherwise. -/
theorem applySign_parityFlag_neg_iff (a b : Word) {m : Word} (hm : m.toNat < 2 ^ 63)
    (h0 : applySign (parityFlag a b) m ≠ 0#64) :
    (applySign (parityFlag a b) m).toInt < 0 ↔ ¬ (a.toInt < 0 ↔ b.toInt < 0) := by
  have hpos : m.toNat ≠ 0 := by
    intro hzero
    obtain rfl : m = 0#64 := BitVec.eq_of_toNat_eq hzero
    exact h0 (applySign_zero _)
  rw [toInt_applySign_parityFlag a b hm]
  by_cases hs : a.toInt < 0 ↔ b.toInt < 0
  · rw [if_pos hs]
    exact iff_of_false (by omega) (not_not.2 hs)
  · rw [if_neg hs]
    exact iff_of_true (by omega) hs

/-! Negating an operand. -/

/-- Negation keeps the magnitude of every word, the most negative included (D13). -/
theorem mag64_neg (a : Word) : mag64 (-a) = mag64 a := by
  refine BitVec.eq_of_toNat_eq ?_
  rw [mag64_toNat, mag64_toNat, BitVec.toInt_neg_eq_ite]
  split
  · rfl
  · exact Int.natAbs_neg _

theorem parityFlag_neg {a : Word} (h0 : a ≠ 0#64) (h : a ≠ 0x8000000000000000#64) (b : Word) :
    parityFlag (-a) b = !parityFlag a b := by
  rw [parityFlag, parityFlag, sgn, BitVec.msb_neg_of_ne_intMin_of_ne_zero h h0, Bool.not_xor]
  rfl

theorem applySign_not (p : Bool) (m : Word) : applySign (!p) m = -applySign p m := by
  cases p
  · rfl
  · exact (BitVec.neg_neg).symm

theorem sentinel_not (p : Bool) : sentinel (!p) = -sentinel p := by
  cases p <;> decide

end Sys2Proof.Machine
end

section
namespace Sys2Proof.Machine

/-! MUL on numbers (43_multiply.md). -/

/-- The magnitude of a product: both magnitudes without their low 8 bits, the low 64 bits of their product, without its
low 8 bits (43_multiply.md R86). -/
def mulMagnitude (a b : Word) : Word := lsr64 (umul64 (reducedMagnitude a) (reducedMagnitude b)) 8

theorem mulMagnitude_toNat (a b : Word) :
    (mulMagnitude a b).toNat = a.toInt.natAbs / 256 * (b.toInt.natAbs / 256) % 2 ^ 64 / 256 := by
  rw [mulMagnitude, lsr64_toNat, umul64_toNat, reducedMagnitude_toNat, reducedMagnitude_toNat]
  rfl

theorem mulMagnitude_toNat_lt (a b : Word) : (mulMagnitude a b).toNat < 2 ^ 56 := by
  rw [mulMagnitude_toNat]
  omega

theorem mulMagnitude_lt (a b : Word) : (mulMagnitude a b).toNat < 2 ^ 63 :=
  (mulMagnitude_toNat_lt a b).trans (by norm_num)

theorem mulWord_eq (a b : Word) : mulWord a b = applySign (parityFlag a b) (mulMagnitude a b) := rfl

theorem ask_mul (a b : Word) : ask .mul a b = some (mulWord a b) := ask_of_transact exec_mul a b

theorem mulWord_toInt (a b : Word) :
    (mulWord a b).toInt =
      if a.toInt < 0 ↔ b.toInt < 0 then ((mulMagnitude a b).toNat : Int) else -(mulMagnitude a b).toNat := by
  rw [mulWord_eq, toInt_applySign_parityFlag _ _ (mulMagnitude_lt a b)]

theorem natAbs_mulWord (a b : Word) : (mulWord a b).toInt.natAbs = (mulMagnitude a b).toNat :=
  natAbs_applySign _ (mulMagnitude_lt a b)

/-- Settles O37: the machine's shifts and product, read on the numbers, under the combined sign. -/
theorem mulIsTheReducedProduct : Obligations.MulIsTheReducedProduct := by
  refine ⟨by decide, fun op a b rest r0 => ?_, by decide⟩
  intro q
  have hq : q = (mulMagnitude a b).toNat := congrArg Nat.cast (mulMagnitude_toNat a b).symm
  rw [exec_mul, transact_cons, mulWord_eq, applySign_parityFlag, hq]

/-- Settles O38: a product is its magnitude, below 2^56, under the combined sign. -/
theorem mulSignZeroAndRange : Obligations.MulSignZeroAndRange := by
  intro a b
  have habs := natAbs_mulWord a b
  have hlt := mulMagnitude_toNat_lt a b
  refine ⟨mulWord a b, ask_mul a b, ?_, applySign_parityFlag_neg_iff a b (mulMagnitude_lt a b), ?_, ?_⟩
  · rw [← BitVec.toInt_inj, BitVec.toInt_zero, ← Int.natAbs_eq_zero, habs, mulMagnitude_toNat,
      Nat.div_eq_zero_iff_lt (by norm_num)]
  · omega
  · omega

/-- Where the product of the reduced magnitudes fits, the magnitude is the floor of that product, in units
(43_multiply.md R90). -/
theorem mulMagnitude_toNat_of_fits {a b : Word} (h : a.toInt.natAbs / 256 * (b.toInt.natAbs / 256) < 2 ^ 64) :
    (mulMagnitude a b).toNat =
      (a.toInt.natAbs - a.toInt.natAbs % 256) * (b.toInt.natAbs - b.toInt.natAbs % 256) / 2 ^ 24 := by
  have hcut (n : ℕ) : n - n % 256 = 256 * (n / 256) := by omega
  rw [mulMagnitude_toNat, Nat.mod_eq_of_lt h, hcut, hcut, mul_mul_mul_comm]
  omega

theorem abs_rval (a : Word) : |rval a| = a.toInt.natAbs / 2 ^ 24 := by
  rw [rval, abs_div, Nat.cast_natAbs, Int.cast_abs, abs_of_pos (by positivity : (0 : ℚ) < 2 ^ 24)]

/-- What R88 gives for the product of the reduced magnitudes to fit (43_multiply.md). -/
theorem reduced_product_fits {a b : Word} (h : |rval a| * |rval b| < 2 ^ 32) :
    a.toInt.natAbs / 256 * (b.toInt.natAbs / 256) < 2 ^ 64 := by
  have hprod : a.toInt.natAbs * b.toInt.natAbs < 2 ^ 80 := by
    rw [abs_rval, abs_rval, div_mul_div_comm, div_lt_iff₀ (by positivity)] at h
    generalize a.toInt.natAbs = m at h ⊢
    generalize b.toInt.natAbs = n at h ⊢
    norm_num at h ⊢
    exact_mod_cast h
  have hred : 256 * (a.toInt.natAbs / 256) * (256 * (b.toInt.natAbs / 256)) ≤ a.toInt.natAbs * b.toInt.natAbs :=
    Nat.mul_le_mul (Nat.mul_div_le _ _) (Nat.mul_div_le _ _)
  rw [mul_mul_mul_comm] at hred
  omega

/-- The floor of a product of reduced factors: never above the true product, and short of it by less than the parts cut
off and one unit (43_multiply.md R90). -/
theorem floor_reduced_product_bounds {m n e d : ℕ} (he : e ≤ m) (hd : d ≤ n) (he' : e ≤ 255) (hd' : d ≤ 255) :
    let x : ℚ := (m : ℚ) * n / 2 ^ 24
    let k : ℕ := (m - e) * (n - d) / 2 ^ 24
    0 ≤ x - k ∧ x - k < ((m : ℚ) * d + n * e - e * d) / 2 ^ 24 + 1 ∧
      ((m : ℚ) * d + n * e - e * d) / 2 ^ 24 + 1 ≤ 255 * ((m : ℚ) + n) / 2 ^ 24 + 1 := by
  intro x k
  have hcut : (((m - e) * (n - d) : ℕ) : ℚ) = m * n - (m * d + n * e - e * d) := by
    rw [Nat.cast_mul, Nat.cast_sub he, Nat.cast_sub hd]
    ring
  have hfloor : (k : ℚ) * 2 ^ 24 ≤ ((m - e) * (n - d) : ℕ) := by
    exact_mod_cast Nat.div_mul_le_self ((m - e) * (n - d)) (2 ^ 24)
  have hceil : (((m - e) * (n - d) : ℕ) : ℚ) < 2 ^ 24 * (k + 1) := by
    exact_mod_cast Nat.lt_mul_div_succ ((m - e) * (n - d)) (by norm_num : 0 < 2 ^ 24)
  have hed : (e : ℚ) * d ≤ m * d := by exact_mod_cast Nat.mul_le_mul_right d he
  have hmd : (m : ℚ) * d ≤ m * 255 := by exact_mod_cast Nat.mul_le_mul_left m hd'
  have hne : (n : ℚ) * e ≤ n * 255 := by exact_mod_cast Nat.mul_le_mul_left n he'
  have hed0 : (0 : ℚ) ≤ e * d := by positivity
  have hne0 : (0 : ℚ) ≤ n * e := by positivity
  have hx : x * 2 ^ 24 = m * n := div_mul_cancel₀ _ (by positivity)
  rw [hcut] at hfloor hceil
  refine ⟨?_, ?_, ?_⟩
  · linarith
  · linarith
  · linarith

/-- Settles O39: the floor of the product of the reduced magnitudes, and what the two cuts and the floor can lose. -/
theorem mulErrorBound : Obligations.MulErrorBound := by
  intro a b
  refine ⟨mulWord a b, ask_mul a b, ?_⟩
  intro ma mb ea eb x
  refine ⟨fun hfits => ?_, reduced_product_fits⟩
  have habs := (natAbs_mulWord a b).trans (mulMagnitude_toNat_of_fits hfits)
  refine ⟨habs, ?_⟩
  rw [habs]
  exact floor_reduced_product_bounds (Nat.mod_le _ _) (Nat.mod_le _ _) (by omega) (by omega)

/-! Exact products (43_multiply.md R91). -/

/-- A product of integers on sign and magnitude. -/
theorem mul_eq_ite_natAbs (m n : Int) :
    m * n = if m < 0 ↔ n < 0 then ((m.natAbs * n.natAbs : Nat) : Int) else -(m.natAbs * n.natAbs : Nat) := by
  rcases lt_or_ge m 0 with hm | hm
  · rcases lt_or_ge n 0 with hn | hn
    · simp [hm, hn, abs_of_neg]
    · simp [hm, hn.not_gt, abs_of_neg hm, abs_of_nonneg hn]
  · rcases lt_or_ge n 0 with hn | hn
    · simp [hm.not_gt, hn, abs_of_nonneg hm, abs_of_neg hn]
    · simp [hm.not_gt, hn.not_gt, abs_of_nonneg hm, abs_of_nonneg hn]

/-- A product that drops no bit is exact (43_multiply.md R91). -/
theorem mulWord_toInt_of_exact {a b : Word} (ha : a.toInt.natAbs % 256 = 0) (hb : b.toInt.natAbs % 256 = 0)
    (hab : a.toInt.natAbs * b.toInt.natAbs % 2 ^ 24 = 0)
    (hfits : a.toInt.natAbs / 256 * (b.toInt.natAbs / 256) < 2 ^ 64) :
    (mulWord a b).toInt * 2 ^ 24 = a.toInt * b.toInt := by
  have hmag : (mulMagnitude a b).toNat * 2 ^ 24 = a.toInt.natAbs * b.toInt.natAbs := by
    rw [mulMagnitude_toNat_of_fits hfits, ha, hb]
    exact Nat.div_mul_cancel (Nat.dvd_of_mod_eq_zero hab)
  rw [mul_eq_ite_natAbs a.toInt b.toInt, ← hmag, mulWord_toInt]
  split
  · push_cast
    ring
  · push_cast
    ring

/-- The product of two fixed-point integers is the fixed-point product (43_multiply.md R91). -/
theorem mulWord_of_integers {a b : Word} {i j : Int} (ha : a.toInt = i * 2 ^ 24) (hb : b.toInt = j * 2 ^ 24)
    (hij : |i * j| < 2 ^ 32) : mulWord a b = word (i * j * 2 ^ 24) := by
  have hma : a.toInt.natAbs = i.natAbs * 2 ^ 24 := by rw [ha, Int.natAbs_mul]; rfl
  have hmb : b.toInt.natAbs = j.natAbs * 2 ^ 24 := by rw [hb, Int.natAbs_mul]; rfl
  have hprod : i.natAbs * j.natAbs < 2 ^ 32 := by
    rw [Int.abs_eq_natAbs, Int.natAbs_mul] at hij
    exact_mod_cast hij
  have hred (n : ℕ) : n * 2 ^ 24 / 256 = n * 2 ^ 16 := by omega
  have hexact := mulWord_toInt_of_exact (a := a) (b := b) (by omega) (by omega)
    (by rw [hma, mul_right_comm, Nat.mul_mod_left]) (by rw [hma, hmb, hred, hred, mul_mul_mul_comm]; omega)
  rw [ha, hb] at hexact
  have hint : (mulWord a b).toInt = i * j * 2 ^ 24 := by linarith
  rw [← hint]
  exact BitVec.ofInt_toInt.symm

/-- Clearing the low part of a number toward zero, on sign and magnitude. -/
theorem sub_tmod_eq_ite (n : Int) (k : Nat) :
    n - n.tmod k = if n < 0 then -((n.natAbs / k * k : Nat) : Int) else (n.natAbs / k * k : Nat) := by
  have hdiv := Int.mul_tdiv_add_tmod n k
  have hclear : n - n.tmod k = k * n.tdiv k := by omega
  rw [hclear, tdiv_natCast_eq_ite]
  split
  · push_cast
    ring
  · push_cast
    ring

/-- The combined sign with 1.0 is the sign of the other operand. -/
theorem combined_sign_one (a : Word) :
    (a.toInt < 0 ↔ (0x0000000001000000#64 : Word).toInt < 0) ↔ ¬ a.toInt < 0 :=
  iff_false_right (by decide)

/-- Multiplying by 1.0 clears the low 8 bits of the magnitude (43_multiply.md R91). -/
theorem mulWord_one_toInt {a : Word} (h : a.toInt.natAbs < 2 ^ 56) :
    (mulWord a 0x0000000001000000#64).toInt = a.toInt - a.toInt.tmod 256 := by
  have hone : (0x0000000001000000#64 : Word).toInt.natAbs / 256 = 2 ^ 16 := by decide
  have hmag : (mulMagnitude a 0x0000000001000000#64).toNat = a.toInt.natAbs / 256 * 256 := by
    rw [mulMagnitude_toNat, hone]
    omega
  have hclear := sub_tmod_eq_ite a.toInt 256
  rw [← hmag] at hclear
  simp only [mulWord_toInt, combined_sign_one, ite_not]
  exact hclear.symm

/-- Settles O40: where no bit is dropped the product is exact, and 1.0 drops the low 8 bits of the other factor alone. -/
theorem mulExactCases : Obligations.MulExactCases := by
  refine ⟨fun a b ha hb hab hfits => ⟨_, ask_mul a b, ?_⟩, fun a b i j ha hb hij => ?_,
    fun a h => ⟨_, ask_mul a _, mulWord_one_toInt h⟩⟩
  · have hexact := mulWord_toInt_of_exact ha hb hab hfits
    have hcast : ((mulWord a b).toInt : ℚ) * 2 ^ 24 = a.toInt * b.toInt := by exact_mod_cast hexact
    rw [rval, rval, rval, div_mul_div_comm, ← hcast]
    field_simp
  · have hij' : (word (i * j)).toInt = i * j := word_toInt_of_fits ((fitsWord_iff _).2 (by
      rw [abs_lt] at hij
      omega))
    rw [ask_mul, ask_of_transact exec_i2xS64, signedToFixed_eq_word, hij', mulWord_of_integers ha hb hij]

/-! The algebra of MUL (43_multiply.md R93). -/

theorem mulWord_comm (a b : Word) : mulWord a b = mulWord b a := by
  rw [mulWord, mulWord, parityFlag_comm, umul64, BitVec.mul_comm]
  rfl

theorem mulWord_zero (a : Word) : mulWord a 0#64 = 0#64 := by
  have hmag : mulMagnitude a 0#64 = 0#64 := BitVec.eq_of_toNat_eq (by simp [mulMagnitude_toNat])
  rw [mulWord_eq, hmag, applySign_zero]

theorem mulWord_neg {a : Word} (h : a ≠ 0x8000000000000000#64) (b : Word) : mulWord (-a) b = -mulWord a b := by
  by_cases h0 : a = 0#64
  · rw [h0, BitVec.neg_zero, mulWord_comm, mulWord_zero, BitVec.neg_zero]
  · rw [mulWord, mulWord, parityFlag_neg h0 h, applySign_not, reducedMagnitude, mag64_neg, ← reducedMagnitude]

/-- Settles O41: the sign is symmetric and odd in each operand. Two units of 2^-16 lose their product, against
associativity; two summands of 2^-17 are each lost by 1.0 and their sum is not, against distributivity. -/
theorem mulAlgebra : Obligations.MulAlgebra := by
  refine ⟨fun a b => ?_, fun a => ⟨?_, ?_⟩, fun a b h => ⟨_, ask_mul a b, ?_⟩,
    ⟨0x100#64, 0x100#64, 0x10000000000#64, by decide⟩,
    ⟨0x1000000#64, 0x80#64, 0x80#64, 0#64, 0#64, by decide, by decide, by decide⟩⟩
  · rw [ask_mul, ask_mul, mulWord_comm]
  · rw [ask_mul, mulWord_zero]
  · rw [ask_mul, mulWord_comm, mulWord_zero]
  · rw [ask_mul, mulWord_neg h]

end Sys2Proof.Machine
end

section
namespace Sys2Proof.Machine

/-! DIV on numbers (44_divide.md). -/

/-- The magnitude of a quotient past the zero test (44_divide.md R95). -/
def divMagnitude (a b : Word) : Word := lsl64 (udiv64 (lsl64 (mag64 a) 10) (reducedMagnitude b)) 6

theorem divMagnitude_toNat (a b : Word) :
    (divMagnitude a b).toNat =
      a.toInt.natAbs * 1024 % 2 ^ 64 / (b.toInt.natAbs / 256) * 64 % 2 ^ 64 := by
  rw [divMagnitude, lsl64_toNat, udiv64_toNat, lsl64_toNat, mag64_toNat, reducedMagnitude_toNat]
  rfl

theorem ask_div (a b : Word) : ask .div a b = some (divWord a b) := ask_of_transact exec_div a b

theorem reducedDivisor_eq_zero_iff (b : Word) : b.toInt.natAbs / 256 = 0 ↔ |b.toInt| ≤ 255 := by
  rw [Int.abs_eq_natAbs]
  omega

theorem divWord_eq_divMagnitude {b : Word} (h : ¬ |b.toInt| ≤ 255) (a : Word) :
    divWord a b = applySign (parityFlag a b) (divMagnitude a b) := divWord_of_large h a

/-- Settles O42: the zero test, and the machine's shifts and quotient read on the numbers, under the combined sign. -/
theorem divIsTheReducedQuotient : Obligations.DivIsTheReducedQuotient := by
  refine ⟨by decide, fun op a b rest r0 => ?_, by decide⟩
  intro d m
  have hm : m = (divMagnitude a b).toNat := congrArg Nat.cast (divMagnitude_toNat a b).symm
  rw [exec_div, transact_cons]
  split
  next hd => rw [divWord_of_small ((reducedDivisor_eq_zero_iff b).1 hd), sentinel_parityFlag]
  next hd => rw [divWord_eq_divMagnitude (mt (reducedDivisor_eq_zero_iff b).2 hd), applySign_parityFlag, hm]

/-- Settles O44: the sentinel is that of the sign bits, and the last shift leaves six zeros, which the sign keeps. -/
theorem divSentinelSignsAndLowBits : Obligations.DivSentinelSignsAndLowBits := by
  refine ⟨fun a b hsmall => ?_, fun a b hlarge => ⟨_, ask_div a b, ?_⟩, fun b hlarge => ?_, by decide, by decide,
    by decide, by decide, by decide, by decide, by decide⟩
  · rw [ask_div, divWord_of_small hsmall]
    simp only [sentinel, parityFlag, sgn, bne_iff_ne, ne_eq, ite_not]
  · exact divWord_toNat_mod_of_large (by omega) a
  · have hzero : divMagnitude 0#64 b = 0#64 := BitVec.eq_of_toNat_eq (by simp [divMagnitude_toNat])
    rw [ask_div, divWord_eq_divMagnitude (by omega), hzero, applySign_zero]

/-- Where neither shift overflows, the magnitude is 64 times the truncated quotient (44_divide.md R100). -/
theorem divMagnitude_toNat_of_fits {a b : Word} (ha : a.toInt.natAbs < 2 ^ 54)
    (hq : a.toInt.natAbs * 1024 / (b.toInt.natAbs / 256) < 2 ^ 57) :
    (divMagnitude a b).toNat = 64 * (a.toInt.natAbs * 1024 / (b.toInt.natAbs / 256)) := by
  rw [divMagnitude_toNat, Nat.mod_eq_of_lt (by omega : a.toInt.natAbs * 1024 < 2 ^ 64)]
  omega

/-- A quotient that does not overflow has the size of its magnitude. -/
theorem natAbs_divWord_of_fits {a b : Word} (hd : b.toInt.natAbs / 256 ≠ 0) (ha : a.toInt.natAbs < 2 ^ 54)
    (hq : a.toInt.natAbs * 1024 / (b.toInt.natAbs / 256) < 2 ^ 57) :
    (divWord a b).toInt.natAbs = 64 * (a.toInt.natAbs * 1024 / (b.toInt.natAbs / 256)) := by
  have hmag := divMagnitude_toNat_of_fits ha hq
  rw [divWord_eq_divMagnitude (mt (reducedDivisor_eq_zero_iff b).2 hd), natAbs_applySign _ (by omega), hmag]

/-- Truncating to a multiple of 64 units and dropping the low 8 divisor bits, as bounds on the true quotient
(44_divide.md R100, R101). -/
theorem reduced_quotient_bounds (m : ℕ) {n d e : ℕ} (hn : n = 256 * d + e) (hd : d ≠ 0) :
    let y : ℚ := (m : ℚ) * 2 ^ 24 / n
    let k : ℕ := 64 * (m * 1024 / d)
    y - 64 < k ∧ (k : ℚ) ≤ (m : ℚ) * 2 ^ 16 / d ∧ (m : ℚ) * 2 ^ 16 / d = y * (1 + (e : ℚ) / (256 * d)) := by
  intro y k
  have hdpos : (0 : ℚ) < d := by positivity
  have hnpos : (0 : ℚ) < n := by rw [hn]; positivity
  have hncast : (n : ℚ) = 256 * d + e := by exact_mod_cast hn
  have hlow : 1 + (e : ℚ) / (256 * d) = n / (256 * d) := by
    rw [hncast]
    field_simp
  have hrel : (m : ℚ) * 2 ^ 16 / d = y * (1 + (e : ℚ) / (256 * d)) := by
    rw [hlow, div_mul_div_cancel₀ hnpos.ne', div_eq_div_iff (by positivity) (by positivity)]
    ring
  have hfloor : (k : ℚ) ≤ (m : ℚ) * 2 ^ 16 / d := by
    have hle : ((m * 1024 / d : ℕ) : ℚ) * d ≤ m * 1024 := by exact_mod_cast Nat.div_mul_le_self (m * 1024) d
    rw [le_div_iff₀ hdpos, Nat.cast_mul, Nat.cast_ofNat]
    linarith
  have hceil : (m : ℚ) * 2 ^ 16 / d < k + 64 := by
    have hlt : (m : ℚ) * 1024 < d * ((m * 1024 / d : ℕ) + 1) := by
      exact_mod_cast Nat.lt_mul_div_succ (m * 1024) (Nat.pos_of_ne_zero hd)
    rw [div_lt_iff₀ hdpos, Nat.cast_mul, Nat.cast_ofNat]
    linarith
  have hy : y ≤ (m : ℚ) * 2 ^ 16 / d := by
    rw [hrel]
    exact le_mul_of_one_le_right (by positivity) (le_add_of_nonneg_right (by positivity))
  exact ⟨by linarith, hfloor, hrel⟩

/-- Settles O45: the size is 64 times the truncated quotient by the reduced divisor, which is at most the divisor. -/
theorem divErrorBound : Obligations.DivErrorBound := by
  intro a b ma mb eb d y hd ha hq
  have habs := natAbs_divWord_of_fits hd ha hq
  have hmag := divMagnitude_toNat_of_fits ha hq
  have hlarge := mt (reducedDivisor_eq_zero_iff b).2 hd
  have hlt : (divMagnitude a b).toNat < 2 ^ 63 := by
    rw [hmag]
    exact (Nat.mul_lt_mul_of_pos_left hq (by norm_num)).trans_eq (by norm_num)
  refine ⟨divWord a b, ask_div a b, habs, ?_, ?_⟩
  · rw [divWord_eq_divMagnitude hlarge]
    exact applySign_parityFlag_neg_iff a b hlt
  · rw [habs]
    exact reduced_quotient_bounds ma (Nat.div_add_mod mb 256).symm hd

/-- Dividing by 1.0 clears the low 6 bits of the magnitude (44_divide.md R103). -/
theorem divWord_one_toInt {a : Word} (h : a.toInt.natAbs < 2 ^ 54) :
    (divWord a 0x0000000001000000#64).toInt = a.toInt - a.toInt.tmod 64 := by
  have hone : (0x0000000001000000#64 : Word).toInt.natAbs / 256 = 2 ^ 16 := by decide
  have hmag : (divMagnitude a 0x0000000001000000#64).toNat = a.toInt.natAbs / 64 * 64 := by
    rw [divMagnitude_toNat, hone]
    omega
  have hclear := sub_tmod_eq_ite a.toInt 64
  rw [← hmag] at hclear
  rw [divWord_eq_divMagnitude (by decide), toInt_applySign_parityFlag _ _ (by omega)]
  simp only [combined_sign_one, ite_not]
  exact hclear.symm

/-- Settles O46: a divisor without low 8 bits is 256 times its reduced magnitude, so the two shifts make up the scale by
2^24. -/
theorem divExactCasesAndOverflow : Obligations.DivExactCasesAndOverflow := by
  refine ⟨fun a b hb hlow ha hq => ⟨_, ask_div a b, ?_⟩, fun a h => ⟨_, ask_div a _, divWord_one_toInt h⟩, by decide,
    by decide, by decide, by decide, by decide⟩
  rw [natAbs_divWord_of_fits (by omega) ha hq]
  obtain ⟨d, hd⟩ : 256 ∣ b.toInt.natAbs := Nat.dvd_of_mod_eq_zero hlow
  have hnum : a.toInt.natAbs * 2 ^ 24 = a.toInt.natAbs * 1024 * 2 ^ 14 := by ring
  have hden : 256 * d * 64 = d * 2 ^ 14 := by ring
  rw [hd, Nat.mul_div_cancel_left _ (by norm_num), Nat.div_div_eq_div_mul, hnum, hden,
    Nat.mul_div_mul_right _ _ (by norm_num)]

theorem divWord_neg {a : Word} (h0 : a ≠ 0#64) (h : a ≠ 0x8000000000000000#64) (b : Word) :
    divWord (-a) b = -divWord a b := by
  by_cases hb : |b.toInt| ≤ 255
  · rw [divWord_of_small hb, divWord_of_small hb, parityFlag_neg h0 h, sentinel_not]
  · rw [divWord_of_large hb, divWord_of_large hb, parityFlag_neg h0 h, applySign_not, mag64_neg]

/-- Settles O47: negating the dividend keeps its magnitude and flips the parity flag, but for 0 and the most negative
word. -/
theorem divIsOddInTheDividend : Obligations.DivIsOddInTheDividend := by
  refine ⟨fun a b h0 h => ⟨_, ask_div a b, ?_⟩, ⟨0#64, Config.posSentinel, by decide, by decide⟩⟩
  rw [ask_div, divWord_neg h0 h]

end Sys2Proof.Machine
end

section
namespace Sys2Proof.Machine

/-! The order of words and of the real values they stand for (45_compare.md R113, R114). -/

theorem rval_lt_rval_iff (a b : Word) : rval a < rval b ↔ a.toInt < b.toInt := by
  rw [rval, rval, div_lt_div_iff_of_pos_right (by positivity), Int.cast_lt]

theorem rval_inj (a b : Word) : rval a = rval b ↔ a = b := by
  rw [rval, rval, div_left_inj' (by positivity), Int.cast_inj, BitVec.toInt_inj]

theorem truthWord_eq_one_iff (t : Bool) : truthWord t = 1#64 ↔ t = true := by
  cases t <;> decide

/-- Settles O50: the signed values are totally ordered, and the real values are the signed values over 2^24. -/
theorem orderIsTheOrderOfRealValues : Obligations.OrderIsTheOrderOfRealValues := by
  refine ⟨fun a b => ⟨_, _, _, ask_cmplt a b, ask_cmpeq a b, ask_cmpgt a b, ?_⟩, fun a b => ?_, fun a b => ?_,
    fun a b c => ?_⟩
  · rcases lt_trichotomy a.toInt b.toInt with h | h | h
    · have hne : wordEq a b = false := Bool.eq_false_iff.2 fun heq => h.ne (congrArg _ ((wordEq_iff a b).1 heq))
      have hgt : signedLt b a = false := decide_eq_false h.not_gt
      rw [(signedLt_iff a b).2 h, hne, hgt]
      decide
    · obtain rfl := BitVec.eq_of_toInt_eq h
      rw [signedLt_self, (wordEq_iff a a).2 rfl]
      decide
    · have hne : wordEq a b = false := Bool.eq_false_iff.2 fun heq => h.ne' (congrArg _ ((wordEq_iff a b).1 heq))
      have hlt : signedLt a b = false := decide_eq_false h.not_gt
      rw [(signedLt_iff b a).2 h, hne, hlt]
      decide
  · rw [ask_cmplt, Option.some_inj, truthWord_eq_one_iff, signedLt_iff, rval_lt_rval_iff]
  · rw [ask_cmpeq, Option.some_inj, truthWord_eq_one_iff, wordEq_iff, rval_inj]
  · simp only [ask_cmple, Option.some_inj, truthWord_eq_one_iff, signedLe_iff]
    exact le_trans

end Sys2Proof.Machine
end

section
namespace Sys2Proof.Machine

/-! Mixed-type operations (46_mixed_type_and_pseudo.md R116 to R118). -/

theorem mixedRight_of_ask {t : NativeType} {n x : Word} (h : ask t.conversion n 0#64 = some x) (o : BinaryOp) (a : Word) :
    mixedRight o t a n = ask o.instr a x := by
  rw [mixedRight, h]

theorem mixedLeft_of_ask {t : NativeType} {n x : Word} (h : ask t.conversion n 0#64 = some x) (o : BinaryOp) (a : Word) :
    mixedLeft o t n a = ask o.instr x a := by
  rw [mixedLeft, h]

/-- A float operand in the domain stands for its literal (30_encoding.md R46). -/
theorem floatToFixed_eq_qLiteral {f : FloatFormat} {v : Word} (hv : v.toNat < 2 ^ floatWidth f)
    (h : inDomainPattern f v = true) (fast : Bool) : floatToFixed fast f v = qLiteral (fvalRat f v) := by
  rw [qLiteral, ← floatToFixed_toInt hv h fast]
  exact BitVec.ofInt_toInt.symm

theorem ask_i2x_signed {i : Instr} {k : ℕ} (hk : k ≤ 64) (hi : exec i = transact fun a _ => signedToFixed (sext k a))
    (n : Word) : ask i n 0#64 = some (word ((n.setWidth k).toInt * 2 ^ 24)) := by
  rw [ask_of_transact hi, signedToFixed_sext hk]

theorem ask_i2x_unsigned {i : Instr} {k : ℕ} (hk : k ≤ 64)
    (hi : exec i = transact fun a _ => unsignedToFixed (zext k a)) (n : Word) :
    ask i n 0#64 = some (word ((n.setWidth k).toNat * 2 ^ 24)) := by
  rw [ask_of_transact hi, unsignedToFixed_zext hk, BitVec.toNat_setWidth]

/-- Settles O51: each conversion's answer is the named word, and the operation runs on whatever the conversion answers. -/
theorem mixedOperandsConvertFirst : Obligations.MixedOperandsConvertFirst := by
  refine ⟨fun o a n => ⟨?_, ?_, ?_, ?_, ?_, ?_, ?_, ?_, fun hdom => ?_, fun hdom => ?_⟩, fun o t a n => ?_, by decide,
    by decide⟩
  · exact mixedRight_of_ask (t := .s8) (ask_i2x_signed (by norm_num) exec_i2xS8 n) o a
  · exact mixedRight_of_ask (t := .s16) (ask_i2x_signed (by norm_num) exec_i2xS16 n) o a
  · exact mixedRight_of_ask (t := .s32) (ask_i2x_signed (by norm_num) exec_i2xS32 n) o a
  · refine mixedRight_of_ask ?_ o a
    rw [← signedToFixed_eq_word]
    exact ask_of_transact exec_i2xS64 n _
  · exact mixedRight_of_ask (t := .u8) (ask_i2x_unsigned (by norm_num) exec_i2xU8 n) o a
  · exact mixedRight_of_ask (t := .u16) (ask_i2x_unsigned (by norm_num) exec_i2xU16 n) o a
  · exact mixedRight_of_ask (t := .u32) (ask_i2x_unsigned (by norm_num) exec_i2xU32 n) o a
  · refine mixedRight_of_ask ?_ o a
    rw [← unsignedToFixed_eq_word]
    exact ask_of_transact exec_i2xU64 n _
  · refine mixedRight_of_ask (t := .f32) (ask_f2x exec_f2xF32 (fun fast => ?_) _) o a
    exact floatToFixed_eq_qLiteral (floatOperand_toNat_lt .f32 n) hdom fast
  · refine mixedRight_of_ask (t := .f64) (ask_f2x exec_f2xF64 (fun fast => ?_) _) o a
    rw [floatOperand_f64]
    exact floatToFixed_eq_qLiteral n.isLt hdom fast
  · obtain ⟨x, hx⟩ := exists_ask_eq_some t.conversion n 0#64
    obtain ⟨r, hr⟩ := exists_ask_eq_some o.instr a x
    obtain ⟨l, hl⟩ := exists_ask_eq_some o.instr x a
    exact ⟨x, r, l, hx, mixedRight_of_ask hx o a, hr, mixedLeft_of_ask hx o a, hl⟩

end Sys2Proof.Machine
end
